-- ==== Sys2Proof/Word.lean ====
section
/-! DEFINITION. The one word of the core: an unsigned byte (00_scope.md R6), and the index of a register (10_state.md R22). -/

namespace Sys2Proof

/-- Every register, memory cell, latch and immediate is an unsigned 8-bit value (00_scope.md R6). -/
abbrev Byte := BitVec 8

/-- The index of one of the eight registers x[0] .. x[7] (10_state.md R22), after `CheckReg` has passed. -/
abbrev RegIdx := Fin 8

end Sys2Proof
end

