-- ==== Sys2Proof/Config.lean ====
section
/-! DEFINITION. The implementation parameters of 00_scope.md R4: the two that vary, and the fixed ones. -/

namespace Sys2Proof

/-- OOB_POLICY (00_scope.md R4, 92_eei_decisions.md D6): what an address or stack-pointer computation
outside 0..255 does. -/
inductive OobPolicy where
  /-- It raises MemOutOfBounds or StackOutOfBounds: the default. -/
  | fault
  /-- It is taken modulo 256. -/
  | wrap
  deriving DecidableEq, Repr

/-- The two parameters a step takes (00_scope.md R4). No step changes them. -/
structure Config where
  /-- OOB_POLICY -/
  oobPolicy : OobPolicy
  /-- ALU_LOGIC_EXT: whether AND, OR, XOR, SHL and SHR are instructions (92_eei_decisions.md D5). -/
  aluLogicExt : Bool
  deriving DecidableEq, Repr

/-- The defaults of 00_scope.md R4: OOB_POLICY = FAULT, ALU_LOGIC_EXT = false. -/
def Config.default : Config where
  oobPolicy := .fault
  aluLogicExt := false

/-- The same core with the optional ALU operations present. -/
def Config.withLogicExt (c : Config) : Config := { c with aluLogicExt := true }

/-- MEM_SIZE, the number of memory cells (00_scope.md R4). -/
def memSize : Nat := 256

/-- SP_INDEX: the stack pointer is register 7 (00_scope.md R4, 10_state.md R23). -/
def spIdx : RegIdx := 7

/-- SP_RESET (00_scope.md R4). -/
def spReset : Byte := 0xF4#8

end Sys2Proof
end

