-- ==== Sys2Proof/Syntax.lean ====
section
/-! DEFINITION. The instructions: one constructor per row of spec/opcode_table.json, in the table's order. -/

namespace Sys2Proof

/-- The instruction set (30_encoding.md R78). A register operand is the whole operand byte (R76): an index of
8 or more is a form of the instruction, which raises RegOutOfBounds when it executes (40_cycle.md R107). -/
inductive Instr where
  /-- 41_non_alu.md R130 -/
  | hlt
  /-- 41_non_alu.md R131 -/
  | ldi (r imm : Byte)
  /-- 41_non_alu.md R132 -/
  | prn (r : Byte)
  /-- 41_non_alu.md R133 -/
  | push (r : Byte)
  /-- 41_non_alu.md R134 -/
  | pop (r : Byte)
  /-- 41_non_alu.md R135 -/
  | call (r : Byte)
  /-- 41_non_alu.md R136 -/
  | ret
  /-- 41_non_alu.md R137 -/
  | jmp (r : Byte)
  /-- 41_non_alu.md R138 -/
  | jeq (r : Byte)
  /-- 41_non_alu.md R139 -/
  | jne (r : Byte)
  /-- 42_alu.md R161 -/
  | add (a b : Byte)
  /-- 42_alu.md R162 -/
  | sub (a b : Byte)
  /-- 42_alu.md R163 -/
  | mul (a b : Byte)
  /-- 42_alu.md R164 -/
  | cmp (a b : Byte)
  /-- 42_alu.md R171, present only when ALU_LOGIC_EXT -/
  | and (a b : Byte)
  /-- 42_alu.md R172, present only when ALU_LOGIC_EXT -/
  | or (a b : Byte)
  /-- 42_alu.md R173, present only when ALU_LOGIC_EXT -/
  | xor (a b : Byte)
  /-- 42_alu.md R174, present only when ALU_LOGIC_EXT -/
  | shl (a b : Byte)
  /-- 42_alu.md R175, present only when ALU_LOGIC_EXT -/
  | shr (a b : Byte)
  deriving DecidableEq, Repr

end Sys2Proof
end

