-- ==== Sys2Proof/WellFormed.lean ====
section
/-! DEFINITION. Which instructions a core with given parameters has. -/

namespace Sys2Proof

/-- An instruction of the optional extension (42_alu.md R170). -/
def Instr.needsLogicExt : Instr → Bool
  | .and _ _ => true
  | .or _ _ => true
  | .xor _ _ => true
  | .shl _ _ => true
  | .shr _ _ => true
  | .hlt => false
  | .ldi _ _ => false
  | .prn _ => false
  | .push _ => false
  | .pop _ => false
  | .call _ => false
  | .ret => false
  | .jmp _ => false
  | .jeq _ => false
  | .jne _ => false
  | .add _ _ => false
  | .sub _ _ => false
  | .mul _ _ => false
  | .cmp _ _ => false

/-- Well-formed for a core with parameters `cfg`: the five optional operations "exist only when
ALU_LOGIC_EXT = true" (42_alu.md R170). This is the one check: every operand byte 0..255 is legal in an
encoding, since register indices are checked when the instruction executes (30_encoding.md R76). -/
def Instr.wf (cfg : Config) (i : Instr) : Bool := cfg.aluLogicExt || !i.needsLogicExt

end Sys2Proof
end

