-- ==== Sys2Proof/Decode.lean ====
section
/-! DEFINITION. The opcode map, the decoder and the encoder (30_encoding.md). -/

namespace Sys2Proof

/-! ## The opcode byte's fields (30_encoding.md R71 to R73) -/

/-- Opcode bits 7:6, the operand count (R71). -/
def operandCount (op : Byte) : Nat := (op.extractLsb' 6 2).toNat

/-- Opcode bit 5, the ALU bit (R73). -/
def aluBit (op : Byte) : Bool := op.getLsbD 5

/-- Opcode bit 4, the sets-PC bit (R72). -/
def setsPcBit (op : Byte) : Bool := op.getLsbD 4

/-- The length in bytes, from bits 7:6 alone (R70, R83). -/
def instrLength (op : Byte) : Nat := operandCount op + 1

/-! ## The opcode map (30_encoding.md R78)

Of these bytes the source gives LDI, PRN and HLT; the others are general knowledge by the spec's own words
(92_eei_decisions.md D3). PRESUMED by the spec: log 8. -/

def Opcode.hlt : Byte := 0x01#8
def Opcode.ldi : Byte := 0x82#8
def Opcode.prn : Byte := 0x47#8
def Opcode.push : Byte := 0x45#8
def Opcode.pop : Byte := 0x46#8
def Opcode.call : Byte := 0x50#8
def Opcode.ret : Byte := 0x11#8
def Opcode.jmp : Byte := 0x54#8
def Opcode.jeq : Byte := 0x55#8
def Opcode.jne : Byte := 0x56#8
def Opcode.add : Byte := 0xA0#8
def Opcode.sub : Byte := 0xA1#8
def Opcode.mul : Byte := 0xA2#8
def Opcode.cmp : Byte := 0xA7#8
def Opcode.and : Byte := 0xA8#8
def Opcode.or : Byte := 0xAA#8
def Opcode.xor : Byte := 0xAB#8
def Opcode.shl : Byte := 0xAC#8
def Opcode.shr : Byte := 0xAD#8

/-- A row of a decode table: the whole opcode byte that keys it (R80), and the instruction it makes of the
latched operand bytes OPA and OPB (R75). -/
structure OpRow where
  opcode : Byte
  build : Byte → Byte → Instr

/-- NONALU_TABLE: the first ten rows of R78. -/
def nonAluTable : List OpRow :=
  [⟨Opcode.hlt, fun _ _ => .hlt⟩,
   ⟨Opcode.ldi, fun opa opb => .ldi opa opb⟩,
   ⟨Opcode.prn, fun opa _ => .prn opa⟩,
   ⟨Opcode.push, fun opa _ => .push opa⟩,
   ⟨Opcode.pop, fun opa _ => .pop opa⟩,
   ⟨Opcode.call, fun opa _ => .call opa⟩,
   ⟨Opcode.ret, fun _ _ => .ret⟩,
   ⟨Opcode.jmp, fun opa _ => .jmp opa⟩,
   ⟨Opcode.jeq, fun opa _ => .jeq opa⟩,
   ⟨Opcode.jne, fun opa _ => .jne opa⟩]

/-- The four ALU rows the source has (R78). -/
def aluBaseTable : List OpRow :=
  [⟨Opcode.add, fun opa opb => .add opa opb⟩,
   ⟨Opcode.sub, fun opa opb => .sub opa opb⟩,
   ⟨Opcode.mul, fun opa opb => .mul opa opb⟩,
   ⟨Opcode.cmp, fun opa opb => .cmp opa opb⟩]

/-- The five extension rows (R78, R82). -/
def aluExtTable : List OpRow :=
  [⟨Opcode.and, fun opa opb => .and opa opb⟩,
   ⟨Opcode.or, fun opa opb => .or opa opb⟩,
   ⟨Opcode.xor, fun opa opb => .xor opa opb⟩,
   ⟨Opcode.shl, fun opa opb => .shl opa opb⟩,
   ⟨Opcode.shr, fun opa opb => .shr opa opb⟩]

/-- ALU_TABLE: with the extension rows only when ALU_LOGIC_EXT = true (R78, 40_cycle.md R100). -/
def aluTable (cfg : Config) : List OpRow :=
  if cfg.aluLogicExt then aluBaseTable ++ aluExtTable else aluBaseTable

/-- Lookup by the whole opcode byte (R80). -/
def lookupRow : List OpRow → Byte → Option OpRow
  | [], _ => none
  | row :: rows, op => if row.opcode = op then some row else lookupRow rows op

/-! ## The decoder -/

/-- Why an opcode byte is no instruction (30_encoding.md R81). -/
inductive DecodeReject where
  /-- ALU bit 0 and the byte is not in NONALU_TABLE (40_cycle.md R105). -/
  | decodeFault (op : Byte)
  /-- ALU bit 1 and the byte is not in ALU_TABLE (40_cycle.md R104). -/
  | unmappedAluOp (op : Byte)
  deriving DecidableEq, Repr

/-- Why a list of bytes does not begin with an instruction. Fetch meets only the first: it always reads three
bytes (40_cycle.md R101). -/
inductive BytesReject where
  | opcode (why : DecodeReject)
  /-- the list ends before the operand bytes of `op` do -/
  | truncated (op : Byte)
  | noBytes
  deriving DecidableEq, Repr

/-- What `classify` finds: the table row of the byte, or the reason there is none. -/
inductive Classified where
  | row (r : OpRow)
  | reject (why : DecodeReject)

/-- What the decoder answers on the three latched bytes. -/
inductive Decoded where
  | instr (i : Instr)
  | reject (why : DecodeReject)
  deriving DecidableEq, Repr

/-- What the decoder answers on a list of bytes: the instruction and the bytes after it. -/
inductive DecodedBytes where
  | instr (i : Instr) (rest : List Byte)
  | reject (why : BytesReject)
  deriving DecidableEq, Repr

/-- Classify (40_cycle.md R103 to R105): the ALU bit selects the table, the whole byte is looked up in it. -/
def classify (cfg : Config) (op : Byte) : Classified :=
  if aluBit op then
    match lookupRow (aluTable cfg) op with
    | some r => .row r
    | none => .reject (.unmappedAluOp op)
  else
    match lookupRow nonAluTable op with
    | some r => .row r
    | none => .reject (.decodeFault op)

/-- The instruction of the three latched bytes IR, OPA, OPB. Operand bytes the instruction does not use are
ignored (30_encoding.md R77). -/
def decode (cfg : Config) (ir opa opb : Byte) : Decoded :=
  match classify cfg ir with
  | .row r => .instr (r.build opa opb)
  | .reject why => .reject why

/-- The instruction at the head of a byte list and the rest of the list: opcode first, then operand A, then
operand B, as many as bits 7:6 say (30_encoding.md R70, R83). -/
def decodeBytes (cfg : Config) : List Byte → DecodedBytes
  | [] => .reject .noBytes
  | op :: rest =>
    match classify cfg op with
    | .reject why => .reject (.opcode why)
    | .row r =>
      match operandCount op, rest with
      | 0, rest => .instr (r.build 0 0) rest
      | 1, opa :: rest => .instr (r.build opa 0) rest
      | 2, opa :: opb :: rest => .instr (r.build opa opb) rest
      | _, _ => .reject (.truncated op)

/-! ## The encoder (30_encoding.md R75, R89) -/

/-- The opcode byte of an instruction (R78). -/
def Instr.opcode : Instr → Byte
  | .hlt => Opcode.hlt
  | .ldi _ _ => Opcode.ldi
  | .prn _ => Opcode.prn
  | .push _ => Opcode.push
  | .pop _ => Opcode.pop
  | .call _ => Opcode.call
  | .ret => Opcode.ret
  | .jmp _ => Opcode.jmp
  | .jeq _ => Opcode.jeq
  | .jne _ => Opcode.jne
  | .add _ _ => Opcode.add
  | .sub _ _ => Opcode.sub
  | .mul _ _ => Opcode.mul
  | .cmp _ _ => Opcode.cmp
  | .and _ _ => Opcode.and
  | .or _ _ => Opcode.or
  | .xor _ _ => Opcode.xor
  | .shl _ _ => Opcode.shl
  | .shr _ _ => Opcode.shr

/-- The bytes of an instruction, lowest address first (R89). -/
def encode (i : Instr) : List Byte :=
  match i with
  | .hlt => [i.opcode]
  | .ldi r imm => [i.opcode, r, imm]
  | .prn r => [i.opcode, r]
  | .push r => [i.opcode, r]
  | .pop r => [i.opcode, r]
  | .call r => [i.opcode, r]
  | .ret => [i.opcode]
  | .jmp r => [i.opcode, r]
  | .jeq r => [i.opcode, r]
  | .jne r => [i.opcode, r]
  | .add a b => [i.opcode, a, b]
  | .sub a b => [i.opcode, a, b]
  | .mul a b => [i.opcode, a, b]
  | .cmp a b => [i.opcode, a, b]
  | .and a b => [i.opcode, a, b]
  | .or a b => [i.opcode, a, b]
  | .xor a b => [i.opcode, a, b]
  | .shl a b => [i.opcode, a, b]
  | .shr a b => [i.opcode, a, b]

/-! ## The table's numbering of an instruction's bits -/

/-- Byte `k` of the instruction whose bits are `w`, of which the table gives `nbits`: bits 8k+7 .. 8k, the
bits from `nbits` on being 0. -/
def tableByte (nbits w k : Nat) : Byte := BitVec.ofNat 8 (w % 2 ^ nbits / 2 ^ (8 * k))

/-- The instruction the decoder reads from a table word: its bytes lie at increasing addresses, the first
lowest (20_memory.md R54). The decoder is that of a core with ALU_LOGIC_EXT, which has every row of the table. -/
def decodeTableWord (nbits w : Nat) : Option Instr :=
  match decode Config.default.withLogicExt (tableByte nbits w 0) (tableByte nbits w 1) (tableByte nbits w 2) with
  | .instr i => some i
  | .reject _ => none

end Sys2Proof
end

