-- ==== Sys2Proof/Machine/State.lean ====
section
/-! DEFINITION. The state of the core (10_state.md), the fault record, and the reasons a step can stop. -/

namespace Sys2Proof.Machine

/-- The register file: eight 8-bit registers, of which x[7] is the stack pointer (10_state.md R22, R23). -/
structure RegFile where
  r0 : Byte
  r1 : Byte
  r2 : Byte
  r3 : Byte
  r4 : Byte
  r5 : Byte
  r6 : Byte
  /-- x[7], the stack pointer SP -/
  sp : Byte
  deriving DecidableEq, Repr

/-- The cells of M that do not read as 0x00, at strictly rising addresses; an unlisted address reads as 0x00,
the reset contents the spec gives (10_state.md R20, R38). -/
abbrev Memory := List Host.Cell

/-- STATUS (10_state.md R35). -/
inductive RunStatus where
  | running
  | halted
  | faulted
  deriving DecidableEq, Repr

/-- The fault causes (60_exceptions.md R192). -/
inductive FaultCause where
  /-- code 1: ALU bit 0, byte not in NONALU_TABLE -/
  | decodeFault
  /-- code 2: ALU bit 1, byte not in ALU_TABLE -/
  | unmappedAluOp
  /-- code 3: an address the engine computed is outside 0..255 -/
  | memOutOfBounds
  /-- code 4: a register index of 8 or more -/
  | regOutOfBounds
  /-- code 5: a stack operation took SP outside 0..255 -/
  | stackOutOfBounds
  deriving DecidableEq, Repr

/-- FAULT, the fault record (10_state.md R36, 60_exceptions.md R190). -/
structure FaultRecord where
  cause : FaultCause
  /-- pc at the start of the faulting step -/
  pc : Byte
  /-- M[pc] at the start of the faulting step -/
  opcode : Byte
  /-- the offending value, which may lie outside 0..255 (-1 or 256) -/
  info : Int
  deriving DecidableEq, Repr

/-- The state of the core: the parts of 10_state.md, and the two step parameters `cfg`, which the spec makes
arguments of the step and no step writes (log 1). -/
structure State where
  /-- x[0..7] (R22) -/
  regs : RegFile
  /-- the program counter (R27) -/
  pc : Byte
  /-- the flag register (R29) -/
  fl : Byte
  /-- the memory M (R20) -/
  mem : Memory
  /-- IR, the opcode latch (R32) -/
  ir : Byte
  /-- OPA, the operand-A latch (R32) -/
  opa : Byte
  /-- OPB, the operand-B latch (R32) -/
  opb : Byte
  /-- STATUS (R35) -/
  status : RunStatus
  /-- FAULT, meaningful only while STATUS = FAULTED (R36) -/
  faultRec : FaultRecord
  /-- OUT, oldest value first (R37) -/
  out : List Byte
  /-- OOB_POLICY and ALU_LOGIC_EXT (00_scope.md R4): the model's own field -/
  cfg : Config
  deriving DecidableEq, Repr

/-- Why the machine takes no step. A fault of the CORE is not one of these: `raise` is a next state with
STATUS = FAULTED (60_exceptions.md R190, log 5). -/
inductive Fault where
  /-- Raised by `step` alone, when STATUS = HALTED: "A step happens only when STATUS = RUNNING"
  (10_state.md R35). Safe: nothing can be proved of a step the spec says does not happen. -/
  | stepWhileHalted
  /-- Raised by `step` alone, when STATUS = FAULTED (10_state.md R35). Safe, as above. -/
  | stepWhileFaulted
  deriving DecidableEq, Repr

/-- Why an instruction is refused. -/
inductive Refusal where
  /-- Raised by an arm of `exec` whose instruction has no meaning yet; no arm raises it. Safe. -/
  | notModelled (mnemonic : String)
  deriving DecidableEq, Repr

/-- The register file after reset: R0 to R6 zero, SP = 0xF4 (10_state.md R38). -/
def RegFile.reset : RegFile where
  r0 := 0
  r1 := 0
  r2 := 0
  r3 := 0
  r4 := 0
  r5 := 0
  r6 := 0
  sp := spReset

/-- FAULT after reset. DESIGN CHOICE (log 4): the spec leaves it unspecified (10_state.md R38); unsafe. -/
def FaultRecord.reset : FaultRecord where
  cause := .decodeFault
  pc := 0
  opcode := 0
  info := 0

/-- The core right after reset with no image loaded (10_state.md R38, 70_reset_and_hazards.md R220) and the
default parameters (00_scope.md R4). IR, OPA and OPB are DESIGN CHOICE (log 3): the spec leaves them
unspecified; unsafe. -/
def State.reset : State where
  regs := RegFile.reset
  pc := 0
  fl := 0
  mem := []
  ir := 0
  opa := 0
  opb := 0
  status := .running
  faultRec := FaultRecord.reset
  out := []
  cfg := Config.default

end Sys2Proof.Machine
end

