-- ==== Sys2Proof/Machine/Ops.lean ====
section
/-! DEFINITION. The named operations over registers and memory, the engine's phases, and `raise`. -/

namespace Sys2Proof.Machine

/-! ## Results inside a step -/

/-- The outcome of a part of a step: a value, or a `raise` that ends the step (00_scope.md R7). -/
inductive Res (α : Type) where
  | ok (a : α)
  | raise (cause : FaultCause) (info : Int)
  deriving DecidableEq, Repr

/-- Sequencing: a later line runs only if the earlier ones raised nothing (00_scope.md R7). -/
def Res.bind {α β : Type} (r : Res α) (f : α → Res β) : Res β :=
  match r with
  | .ok a => f a
  | .raise cause info => .raise cause info

/-- How an instruction or a step of this core ends. -/
abbrev StepOutcome := Host.Outcome State Fault Refusal

/-! ## Bytes and unbounded integers (00_scope.md R6) -/

/-- The unsigned value of a byte as an unbounded integer: no value of the core is signed (R6). -/
def byteInt (v : Byte) : Int := (v.toNat : Int)

/-- The byte an in-range integer is written back as: `mod 256` (R6, R7). -/
def narrow (t : Int) : Byte := BitVec.ofInt 8 t

/-- "if OOB_POLICY = WRAP: t <- t mod 256" (40_cycle.md R100, R110; 41_non_alu.md R133 to R139). -/
def wrapped (cfg : Config) (t : Int) : Int :=
  match cfg.oobPolicy with
  | .fault => t
  | .wrap => t % 256

/-! ## Memory (20_memory.md) -/

/-- The byte at address `a`; an unlisted address reads as 0x00 (10_state.md R38). -/
def Memory.read : Memory → Nat → Byte
  | [], _ => 0#8
  | (k, v) :: cells, a => if k = a then v else Memory.read cells a

/-- `M[a] <- v`. The list keeps its canonical form: writing 0x00 removes the cell. -/
def Memory.write : Memory → Nat → Byte → Memory
  | [], a, v => if v = 0#8 then [] else [(a, v)]
  | (k, w) :: cells, a, v =>
    if a < k then
      if v = 0#8 then (k, w) :: cells else (a, v) :: (k, w) :: cells
    else if a = k then
      if v = 0#8 then cells else (a, v) :: cells
    else (k, w) :: Memory.write cells a v

/-- Canonical from address `lo` on: strictly rising addresses inside the address space, no cell that reads
as an unlisted one does. -/
def Memory.wfFrom : Nat → Memory → Bool
  | _, [] => true
  | lo, (k, v) :: cells => decide (lo ≤ k) && decide (k < memSize) && decide (v ≠ 0#8) && Memory.wfFrom (k + 1) cells

/-- The canonical form of a memory. -/
def Memory.wf (m : Memory) : Bool := Memory.wfFrom 0 m

/-- MemRead(a, 1) (20_memory.md R52). -/
def State.memRead (s : State) (a : Int) : Res Byte :=
  if a < 0 ∨ 255 < a then .raise .memOutOfBounds a else .ok (s.mem.read a.toNat)

/-- MemWrite(a, 1, v) (20_memory.md R53). -/
def State.memWrite (s : State) (a : Int) (v : Byte) : Res State :=
  if a < 0 ∨ 255 < a then .raise .memOutOfBounds a else .ok { s with mem := s.mem.write a.toNat v }

/-! ## Registers (10_state.md R22) -/

/-- x[i] of a register file. -/
def RegFile.get (f : RegFile) (i : RegIdx) : Byte :=
  match i with
  | 0 => f.r0
  | 1 => f.r1
  | 2 => f.r2
  | 3 => f.r3
  | 4 => f.r4
  | 5 => f.r5
  | 6 => f.r6
  | 7 => f.sp

/-- A register file with x[i] <- v. -/
def RegFile.set (f : RegFile) (i : RegIdx) (v : Byte) : RegFile :=
  match i with
  | 0 => { f with r0 := v }
  | 1 => { f with r1 := v }
  | 2 => { f with r2 := v }
  | 3 => { f with r3 := v }
  | 4 => { f with r4 := v }
  | 5 => { f with r5 := v }
  | 6 => { f with r6 := v }
  | 7 => { f with sp := v }

/-- x[i] (00_scope.md R7). -/
def State.reg (s : State) (i : RegIdx) : Byte := s.regs.get i

/-- x[i] <- v (00_scope.md R7). No register is hardwired, and x[7] is written like any other (10_state.md R22, R25). -/
def State.setReg (s : State) (i : RegIdx) (v : Byte) : State := { s with regs := s.regs.set i v }

/-- pc <- t (00_scope.md R7). -/
def State.setPc (s : State) (t : Byte) : State := { s with pc := t }

/-- fl <- v (00_scope.md R7). -/
def State.setFl (s : State) (v : Byte) : State := { s with fl := v }

/-- Emit(v): append to OUT (10_state.md R37). -/
def State.emit (s : State) (v : Byte) : State := { s with out := s.out ++ [v] }

/-! ## The ways a step ends -/

/-- `raise E(info)` on the state at the start of the step: STATUS and FAULT are written and nothing else
(60_exceptions.md R190, R191). -/
def State.raise (s : State) (cause : FaultCause) (info : Int) : State :=
  { s with
    status := .faulted
    faultRec := { cause := cause, pc := s.pc, opcode := s.mem.read s.pc.toNat, info := info } }

/-- `halt`: STATUS <- HALTED, the step ends and pc is not advanced (41_non_alu.md R130). -/
def State.halt (s : State) : State := { s with status := .halted }

/-- Commit or discard the pending copy `r` of `s` (00_scope.md R8). -/
def State.finish (s : State) (r : Res State) : StepOutcome :=
  match r with
  | .ok p => .next p
  | .raise cause info => .next (s.raise cause info)

/-- Advance/Jump after an instruction with opcode byte `op` (40_cycle.md R109 to R111). -/
def State.advance (op : Byte) (p : State) : Res State :=
  if setsPcBit op then .ok p
  else
    let t := wrapped p.cfg (byteInt p.pc + operandCount op + 1)
    if 255 < t then .raise .memOutOfBounds t else .ok (p.setPc (narrow t))

/-- Execute and Advance/Jump (40_cycle.md R106, R108): run the handler `h` of the instruction with opcode byte
`op` on a pending copy of `s`, then advance, and commit or discard. -/
def runHandler (op : Byte) (h : State → Res State) (s : State) : StepOutcome :=
  s.finish ((h s).bind (State.advance op))

/-! ## The stack (41_non_alu.md R133 to R136) -/

/-- The address a PUSH or CALL stores to, and the SP it leaves: SP - 1, modulo 256 under WRAP. -/
def State.pushSlot (s : State) : Int := wrapped s.cfg (byteInt (s.reg spIdx) - 1)

/-- "s <- x[7] - 1 ... x[7] <- s" (R133, R135). -/
def State.decSp (s : State) : Res State :=
  if s.pushSlot < 0 then .raise .stackOutOfBounds s.pushSlot
  else .ok (s.setReg spIdx (narrow s.pushSlot))

/-- The SP a POP or RET leaves: SP + 1, modulo 256 under WRAP. -/
def State.popSp (s : State) : Int := wrapped s.cfg (byteInt (s.reg spIdx) + 1)

/-- "s <- x[7] + 1 ... x[7] <- s" (R134, R136). -/
def State.incSp (s : State) : Res State :=
  if 255 < s.popSp then .raise .stackOutOfBounds s.popSp
  else .ok (s.setReg spIdx (narrow s.popSp))

/-- memory[SP] <- v (R133, R135). -/
def State.storeTop (s : State) (v : Byte) : Res State := s.memWrite (byteInt (s.reg spIdx)) v

/-- memory[SP] (R134, R136). -/
def State.loadTop (s : State) : Res Byte := s.memRead (byteInt (s.reg spIdx))

/-- pc + 2, modulo 256 under WRAP: the address after a two-byte instruction (R135, R138, R139). Under FAULT it
is in range whenever the fetch was (40_cycle.md R102); DESIGN CHOICE beyond (log 14). -/
def State.pcPlus2 (s : State) : Byte := narrow (wrapped s.cfg (byteInt s.pc + 2))

/-! ## Fetch and Classify (40_cycle.md R101 to R105) -/

/-- Fetch: the bound checks on pc + 1 and pc + 2 in that order, then the three bytes into IR, OPA and OPB of
the pending copy (R100 to R102). -/
def State.fetch (s : State) : Res State :=
  let a1 := wrapped s.cfg (byteInt s.pc + 1)
  let a2 := wrapped s.cfg (byteInt s.pc + 2)
  if 255 < a1 then .raise .memOutOfBounds a1
  else if 255 < a2 then .raise .memOutOfBounds a2
  else
    (s.memRead (byteInt s.pc)).bind fun ir =>
    (s.memRead a1).bind fun opa =>
    (s.memRead a2).bind fun opb =>
    .ok { s with ir := ir, opa := opa, opb := opb }

/-- The fault of an opcode byte that is no instruction (60_exceptions.md R192). -/
def raiseReject {α : Type} : DecodeReject → Res α
  | .decodeFault op => .raise .decodeFault (byteInt op)
  | .unmappedAluOp op => .raise .unmappedAluOp (byteInt op)

/-- Classify: the instruction in the latches (R103 to R105). -/
def State.classifyLatched (p : State) : Res Instr :=
  match decode p.cfg p.ir p.opa p.opb with
  | .instr i => .ok i
  | .reject why => raiseReject why

/-- Fetch, then Classify: the instruction at pc, and the pending copy with its bytes latched. -/
def State.fetchDecode (s : State) : Res (Instr × State) :=
  s.fetch.bind fun p => p.classifyLatched.bind fun i => .ok (i, p)

/-- The commit of a whole step that began in `s` (00_scope.md R8): when the instruction raised, every pending
write is discarded, the latches' too, and only STATUS and FAULT change (log 7). -/
def State.commit (s : State) : StepOutcome → StepOutcome
  | .next p =>
    .next (if p.status = .faulted then { s with status := .faulted, faultRec := p.faultRec } else p)
  | .fault why => .fault why
  | .refused why => .refused why

end Sys2Proof.Machine
end

