-- ==== Sys2Proof/Machine/Flags.lean ====
section
/-! DEFINITION. The flag register's fields (10_state.md R29) and the one flag computation, that of CMP (42_alu.md R164). -/

namespace Sys2Proof.Machine

/-- fl[0], Equal (10_state.md R29). -/
def State.flagE (s : State) : Bool := s.fl.getLsbD 0

/-- fl[1], Greater-than (10_state.md R29). -/
def State.flagG (s : State) : Bool := s.fl.getLsbD 1

/-- fl[2], Less-than (10_state.md R29). -/
def State.flagL (s : State) : Bool := s.fl.getLsbD 2

/-- The whole of fl after comparing `u` with `w` as unsigned values (42_alu.md R164): exactly one of E, G and L
set, bits 7:3 clear. -/
def cmpFlags (u w : Byte) : Byte :=
  if u = w then 0b00000001#8
  else if w.toNat < u.toNat then 0b00000010#8
  else 0b00000100#8

end Sys2Proof.Machine
end

