-- ==== Sys2Proof/Machine/Operands.lean ====
section
/-! DEFINITION. Operand forms: a register operand, and a pair of them (30_encoding.md R75, R76; 40_cycle.md R107). An
immediate is the operand byte itself and needs no operation. -/

namespace Sys2Proof.Machine

/-- CheckReg(r) (40_cycle.md R107): the register the operand byte names, or RegOutOfBounds(r). The index is
the whole byte, not masked (30_encoding.md R76). -/
def checkReg (r : Byte) : Res RegIdx :=
  if h : r.toNat < 8 then .ok ⟨r.toNat, h⟩ else .raise .regOutOfBounds (byteInt r)

/-- CheckReg(a); CheckReg(b), in that order (40_cycle.md R107, 42_alu.md R160). -/
def checkRegs (a b : Byte) : Res (RegIdx × RegIdx) :=
  (checkReg a).bind fun i => (checkReg b).bind fun j => .ok (i, j)

end Sys2Proof.Machine
end

