-- ==== Sys2Proof/Machine/Alu.lean ====
section
/-! DEFINITION. The source's ALU operations ADD, SUB, MUL and CMP (42_alu.md R160 to R164). -/

namespace Sys2Proof.Machine

/-- The handler of an ALU operation that writes x[OPA] (42_alu.md R160): CheckReg on A, then on B, then
x[OPA] <- f(x[OPA], x[OPB]). fl is unchanged. -/
def aluHandler (f : Byte → Byte → Byte) (a b : Byte) (s : State) : Res State :=
  (checkRegs a b).bind fun ij => .ok (s.setReg ij.1 (f (s.reg ij.1) (s.reg ij.2)))

/-- (u + w) mod 256 (R161, R176). -/
def aluAdd (u w : Byte) : Byte := narrow (byteInt u + byteInt w)

/-- (u - w) mod 256 (R162, R176). -/
def aluSub (u w : Byte) : Byte := narrow (byteInt u - byteInt w)

/-- (u * w) mod 256 (R163, R176). -/
def aluMul (u w : Byte) : Byte := narrow (byteInt u * byteInt w)

/-- ADD (R161). -/
def execAdd (a b : Byte) (s : State) : StepOutcome := runHandler Opcode.add (aluHandler aluAdd a b) s

/-- SUB (R162). -/
def execSub (a b : Byte) (s : State) : StepOutcome := runHandler Opcode.sub (aluHandler aluSub a b) s

/-- MUL (R163). -/
def execMul (a b : Byte) (s : State) : StepOutcome := runHandler Opcode.mul (aluHandler aluMul a b) s

/-- The handler of CMP (R164): "operands are the engine's latched OPA/OPB", not the arguments the ALU is
passed (90_conflicts.md C4). -/
def cmpHandler (s : State) : Res State :=
  (checkRegs s.opa s.opb).bind fun ij => .ok (s.setFl (cmpFlags (s.reg ij.1) (s.reg ij.2)))

/-- CMP (R164). Its operand bytes reach it through the latches, which the same step's Fetch wrote
(10_state.md R33, 92_eei_decisions.md D15; log 15). -/
def execCmp (_a _b : Byte) (s : State) : StepOutcome := runHandler Opcode.cmp cmpHandler s

end Sys2Proof.Machine
end

