-- ==== Sys2Proof/Machine/Basic.lean ====
section
/-! DEFINITION. HLT, LDI and PRN (41_non_alu.md R130 to R132). -/

namespace Sys2Proof.Machine

/-- HLT (R130): halt; Advance/Jump is skipped. -/
def execHlt (s : State) : StepOutcome := .next s.halt

/-- The handler of LDI (R131): CheckReg(OPA); x[OPA] <- OPB. -/
def ldiHandler (r imm : Byte) (s : State) : Res State :=
  (checkReg r).bind fun i => .ok (s.setReg i imm)

/-- LDI (R131). -/
def execLdi (r imm : Byte) (s : State) : StepOutcome := runHandler Opcode.ldi (ldiHandler r imm) s

/-- The handler of PRN (R132): CheckReg(OPA); Emit(x[OPA]). -/
def prnHandler (r : Byte) (s : State) : Res State :=
  (checkReg r).bind fun i => .ok (s.emit (s.reg i))

/-- PRN (R132). -/
def execPrn (r : Byte) (s : State) : StepOutcome := runHandler Opcode.prn (prnHandler r) s

end Sys2Proof.Machine
end

