-- ==== Sys2Proof/Machine/Control.lean ====
section
/-! DEFINITION. CALL, RET, JMP, JEQ and JNE (41_non_alu.md R135 to R139): their sets-PC bit is 1, so the handler writes pc. -/

namespace Sys2Proof.Machine

/-- The handler of CALL (R135): the target register is read after the SP write, so CALL R7 jumps to the
decremented SP (D14). -/
def callHandler (r : Byte) (s : State) : Res State :=
  (checkReg r).bind fun i => s.decSp.bind fun p =>
    (p.storeTop p.pcPlus2).bind fun q => .ok (q.setPc (q.reg i))

/-- CALL (R135). -/
def execCall (r : Byte) (s : State) : StepOutcome := runHandler Opcode.call (callHandler r) s

/-- The handler of RET (R136). -/
def retHandler (s : State) : Res State :=
  s.loadTop.bind fun v => s.incSp.bind fun p => .ok (p.setPc v)

/-- RET (R136). -/
def execRet (s : State) : StepOutcome := runHandler Opcode.ret retHandler s

/-- The handler of JMP (R137). -/
def jmpHandler (r : Byte) (s : State) : Res State :=
  (checkReg r).bind fun i => .ok (s.setPc (s.reg i))

/-- JMP (R137). -/
def execJmp (r : Byte) (s : State) : StepOutcome := runHandler Opcode.jmp (jmpHandler r) s

/-- The handler of a conditional jump: CheckReg on both paths; pc <- x[OPA] when `taken`, else the handler's
own advance by 2 (R138, R139). -/
def branchHandler (taken : Bool) (r : Byte) (s : State) : Res State :=
  (checkReg r).bind fun i => .ok (s.setPc (if taken then s.reg i else s.pcPlus2))

/-- JEQ (R138): taken when fl[0] = 1. -/
def execJeq (r : Byte) (s : State) : StepOutcome := runHandler Opcode.jeq (branchHandler s.flagE r) s

/-- JNE (R139): taken when fl[0] = 0. -/
def execJne (r : Byte) (s : State) : StepOutcome := runHandler Opcode.jne (branchHandler (!s.flagE) r) s

end Sys2Proof.Machine
end

