-- ==== Sys2Proof/Machine/Logic.lean ====
section
/-! DEFINITION. The optional operations AND, OR, XOR, SHL and SHR (42_alu.md R170 to R175), which exist only when
ALU_LOGIC_EXT = true. Bytes and semantics are general knowledge by the spec's own words (log 9). -/

namespace Sys2Proof.Machine

/-- An optional operation: UnmappedAluOp of its byte when ALU_LOGIC_EXT = false, otherwise like any ALU
operation (R165, R170). -/
def runExt (op : Byte) (f : Byte → Byte → Byte) (a b : Byte) (s : State) : StepOutcome :=
  if s.cfg.aluLogicExt then runHandler op (aluHandler f a b) s
  else s.finish (.raise .unmappedAluOp (byteInt op))

/-- 0 if k >= 8, else (u * 2^k) mod 256 (R174). -/
def aluShl (u k : Byte) : Byte :=
  if 8 ≤ k.toNat then 0 else narrow (byteInt u * 2 ^ k.toNat)

/-- 0 if k >= 8, else floor(u / 2^k) (R175): logical, never arithmetic. -/
def aluShr (u k : Byte) : Byte :=
  if 8 ≤ k.toNat then 0 else narrow (byteInt u / 2 ^ k.toNat)

/-- AND (R171). -/
def execAnd (a b : Byte) (s : State) : StepOutcome := runExt Opcode.and (fun u w => u &&& w) a b s

/-- OR (R172). -/
def execOr (a b : Byte) (s : State) : StepOutcome := runExt Opcode.or (fun u w => u ||| w) a b s

/-- XOR (R173). -/
def execXor (a b : Byte) (s : State) : StepOutcome := runExt Opcode.xor (fun u w => u ^^^ w) a b s

/-- SHL (R174): the amount is the whole value of register b. -/
def execShl (a b : Byte) (s : State) : StepOutcome := runExt Opcode.shl aluShl a b s

/-- SHR (R175): the amount is the whole value of register b. -/
def execShr (a b : Byte) (s : State) : StepOutcome := runExt Opcode.shr aluShr a b s

end Sys2Proof.Machine
end

