-- ==== Sys2Proof/Machine/Stack.lean ====
section
/-! DEFINITION. PUSH and POP (41_non_alu.md R133, R134). -/

namespace Sys2Proof.Machine

/-- The handler of PUSH (R133): SP is written first, so PUSH R7 stores the decremented SP (D14). -/
def pushHandler (r : Byte) (s : State) : Res State :=
  (checkReg r).bind fun i => s.decSp.bind fun p => p.storeTop (p.reg i)

/-- PUSH (R133). -/
def execPush (r : Byte) (s : State) : StepOutcome := runHandler Opcode.push (pushHandler r) s

/-- The handler of POP (R134): x[7] is read for the increment after the register write, so POP R7 leaves
SP = v + 1 (D14). -/
def popHandler (r : Byte) (s : State) : Res State :=
  (checkReg r).bind fun i => s.loadTop.bind fun v => (s.setReg i v).incSp

/-- POP (R134). -/
def execPop (r : Byte) (s : State) : StepOutcome := runHandler Opcode.pop (popHandler r) s

end Sys2Proof.Machine
end

