-- ==== Sys2Proof/Machine/Step.lean ====
section
/-! DEFINITION. One step of the engine (40_cycle.md R100), and placing an instruction where the next step fetches. -/

namespace Sys2Proof.Machine

/-- One step (40_cycle.md R100): "enabled only when STATUS = RUNNING". Fetch and Classify, then the instruction on
the pending copy with its bytes latched, then the commit (00_scope.md R8). -/
def step (s : State) : Host.Outcome State Fault Refusal :=
  match s.status with
  | .halted => .fault .stepWhileHalted
  | .faulted => .fault .stepWhileFaulted
  | .running =>
    match s.fetchDecode with
    | .raise cause info => .next (s.raise cause info)
    | .ok (i, p) => s.commit (exec i p)

/-- The three bytes of a table word stored at pc, pc + 1 and pc + 2, where Fetch reads them, with ALU_LOGIC_EXT
set when the word is an instruction of that extension, which no other core has (log 13). -/
def State.withFetchWord (s : State) (nbits w : Nat) : State :=
  { s with
    mem := ((s.mem.write s.pc.toNat (tableByte nbits w 0)).write
      (s.pc + 1).toNat (tableByte nbits w 1)).write (s.pc + 2).toNat (tableByte nbits w 2)
    cfg := match decodeTableWord nbits w with
      | some i => if i.needsLogicExt then s.cfg.withLogicExt else s.cfg
      | none => s.cfg }

end Sys2Proof.Machine
end

