-- ==== Sys2Proof/Machine/HostPort.lean ====
section
/-! DEFINITION. The host's side of the core (70_reset_and_hazards.md R223 to R226): load before reset is released, the
decimal output lines, the status, the final state and the exit status. No step of the core uses these. -/

namespace Sys2Proof.Machine

/-- The bytes of an image at consecutive addresses from `a` on (R223). -/
def placeImage (a : Nat) (image : List Byte) (m : Memory) : Memory :=
  match image with
  | [] => m
  | b :: bs => placeImage (a + 1) bs (m.write a b)

/-- Reset with an image loaded at address 0 (R220, R223), on a core with parameters `cfg`; an image of more
than 256 bytes is refused and the core does not start (92_eei_decisions.md D22). This is the only way out of
HALTED and FAULTED (R220). -/
def loadImage (cfg : Config) (image : List Byte) : Option State :=
  if image.length ≤ memSize then
    some { State.reset with mem := placeImage 0 image State.reset.mem, cfg := cfg }
  else none

/-- The character of a decimal digit. -/
def digitChar (d : Nat) : Char := Char.ofNat (48 + d)

/-- The decimal representation of a byte, "with no sign and no leading zeros" (R224). -/
def decimalChars (v : Byte) : List Char :=
  let n := v.toNat
  if n < 10 then [digitChar n]
  else if n < 100 then [digitChar (n / 10), digitChar (n % 10)]
  else [digitChar (n / 100), digitChar (n / 10 % 10), digitChar (n % 10)]

/-- The line end after a value. DESIGN CHOICE (log 24): R224 and D19 say "a line end" and not which characters it is. -/
def lineEnd : List Char := ['\n']

/-- What the host writes for OUT: one decimal line per value, in order (R224), each closed by `lineEnd` (log 24). -/
def State.hostLines (s : State) : List Char := s.out.flatMap fun v => decimalChars v ++ lineEnd

/-- The FAULT record, which the host reads only while STATUS = FAULTED (R225, 10_state.md R36). -/
def State.hostFault (s : State) : Option FaultRecord :=
  if s.status = .faulted then some s.faultRec else none

/-- x, pc, fl and M, which the host may read when STATUS is not RUNNING (R225). -/
def State.hostFinal (s : State) : Option (RegFile × Byte × Byte × Memory) :=
  if s.status = .running then none else some (s.regs, s.pc, s.fl, s.mem)

/-- The host's exit status of a run that has ended: 0 on HLT, 1 on any fault (R226, 92_eei_decisions.md D18). -/
def State.exitStatus (s : State) : Option Nat :=
  match s.status with
  | .running => none
  | .halted => some 0
  | .faulted => some 1

/-- The number of a fault cause, the spec's own numbering (60_exceptions.md R192, D8). -/
def FaultCause.code : FaultCause → Nat
  | .decodeFault => 1
  | .unmappedAluOp => 2
  | .memOutOfBounds => 3
  | .regOutOfBounds => 4
  | .stackOutOfBounds => 5

end Sys2Proof.Machine
end

