-- ==== Sys2Proof/Safety.lean ====
section
/-! DEFINITION. The terms the claims use: the ranges in which nothing is out of bounds, the instruction at
pc, the register operands of an instruction, and the invariant of the core. -/

namespace Sys2Proof.Machine

/-- pc + n stays an address, or the core wraps (40_cycle.md R102, R110). -/
abbrev State.InRange (s : State) (n : Nat) : Prop := s.cfg.oobPolicy = .wrap ∨ s.pc.toNat + n ≤ 255

/-- SP - 1 stays an address, or the core wraps (41_non_alu.md R133, R135). -/
abbrev State.CanPush (s : State) : Prop := s.cfg.oobPolicy = .wrap ∨ 1 ≤ (s.reg spIdx).toNat

/-- `v` + 1 stays an address, or the core wraps (41_non_alu.md R134, R136). -/
abbrev State.CanIncrement (s : State) (v : Byte) : Prop := s.cfg.oobPolicy = .wrap ∨ v.toNat ≤ 254

/-- The byte at memory address pc + n, modulo 256. -/
def State.byteAt (s : State) (n : Byte) : Byte := s.mem.read (s.pc + n).toNat

/-- The state with the instruction bytes at pc latched: what Fetch leaves (40_cycle.md R101). -/
def State.latched (s : State) : State := { s with ir := s.byteAt 0#8, opa := s.byteAt 1#8, opb := s.byteAt 2#8 }

/-- The instruction at pc under the core's parameters (40_cycle.md R103). -/
def State.instrAtPc (s : State) : Decoded := decode s.cfg (s.byteAt 0#8) (s.byteAt 1#8) (s.byteAt 2#8)

/-- The outcome is a fault with this cause and info: STATUS = FAULTED and FAULT says so (60_exceptions.md R190). -/
def Raises (o : StepOutcome) (cause : FaultCause) (info : Int) : Prop :=
  ∃ t, o = .next t ∧ t.status = .faulted ∧ t.faultRec.cause = cause ∧ t.faultRec.info = info

/-- The operand bytes an instruction uses as register indices, in the order they are checked (40_cycle.md R107). -/
def regOperands : Instr → List Byte
  | .hlt => []
  | .ldi r _ => [r]
  | .prn r => [r]
  | .push r => [r]
  | .pop r => [r]
  | .call r => [r]
  | .ret => []
  | .jmp r => [r]
  | .jeq r => [r]
  | .jne r => [r]
  | .add a b => [a, b]
  | .sub a b => [a, b]
  | .mul a b => [a, b]
  | .cmp a b => [a, b]
  | .and a b => [a, b]
  | .or a b => [a, b]
  | .xor a b => [a, b]
  | .shl a b => [a, b]
  | .shr a b => [a, b]

/-- The values fl takes: no flag before the first CMP, exactly one after it (10_state.md R29, R30, R38). -/
abbrev LegalFl (v : Byte) : Prop := v = 0#8 ∨ v = 1#8 ∨ v = 2#8 ∨ v = 4#8

/-- The cause and info a fault of opcode byte `r.opcode` may have (60_exceptions.md R192): each row's
condition, with codes 3 and 5 never raised under WRAP. -/
def FaultRecord.legal (cfg : Config) (r : FaultRecord) : Bool :=
  match r.cause with
  | .decodeFault =>
    !aluBit r.opcode && (lookupRow nonAluTable r.opcode).isNone && decide (r.info = byteInt r.opcode)
  | .unmappedAluOp =>
    aluBit r.opcode && (lookupRow (aluTable cfg) r.opcode).isNone && decide (r.info = byteInt r.opcode)
  | .memOutOfBounds => decide (cfg.oobPolicy = .fault ∧ r.info = 256)
  | .regOutOfBounds => decide (1 ≤ operandCount r.opcode ∧ 8 ≤ r.info ∧ r.info ≤ 255)
  | .stackOutOfBounds =>
    decide (cfg.oobPolicy = .fault ∧
      ((r.opcode = Opcode.push ∨ r.opcode = Opcode.call) ∧ r.info = -1 ∨
        (r.opcode = Opcode.pop ∨ r.opcode = Opcode.ret) ∧ r.info = 256))

/-- The invariant of the core: memory in canonical form, a legal flag register, and, once FAULTED, a record that
points at the faulting instruction and gives a cause it can have (10_state.md R29, R30; 60_exceptions.md R190,
R192). -/
abbrev State.Inv (s : State) : Prop :=
  s.mem.wf = true ∧ LegalFl s.fl ∧
    (s.status = .faulted →
      s.faultRec.pc = s.pc ∧ s.faultRec.opcode = s.mem.read s.pc.toNat ∧ s.faultRec.legal s.cfg = true)

/-- A run is safe so far: no fault has been raised (60_exceptions.md R191). -/
abbrev State.Safe (s : State) : Prop := s.status ≠ .faulted

end Sys2Proof.Machine
end

