-- ==== Sys2Proof/Certificates/Slice0/Obligations.lean ====
section
/-! DEFINITION. The statements for the provers, in the order of spec/: reset and host, encoding, the step, faults, the
instructions, their frames, and the rules about the whole machine. -/

open Sys2Proof Sys2Proof.Machine

/-! ## Reset and the host's side -/

/-- 10_state.md section 8 (R38): what reset leaves. SP, memory, STATUS and OUT are the source's. pc = 0 (D12), R0
to R6 = 0 (D10) and fl = 0 (D11) are the spec's own decisions (log 2), and the parameters are the defaults of
00_scope.md R4 (log 1). Nothing is said of IR, OPA, OPB and FAULT, which the spec leaves unspecified. -/
def Obligations.ResetStateIsAsSpecified : Prop :=
  (∀ i : RegIdx, State.reset.reg i = if i = 7 then 0xF4#8 else 0#8) ∧
    (∀ a : Nat, State.reset.mem.read a = 0#8) ∧
    State.reset.pc = 0#8 ∧ State.reset.fl = 0#8 ∧ State.reset.status = .running ∧ State.reset.out = [] ∧
    State.reset.cfg.oobPolicy = .fault ∧ State.reset.cfg.aluLogicExt = false

/-- 70_reset_and_hazards.md section 3 (R223) and D22: an image of n <= 256 bytes lies at 0 .. n-1 and the rest of
memory is zero; a longer one is refused. Everything else is as at reset. -/
def Obligations.LoadPlacesImage : Prop :=
  ∀ (cfg : Config) (image : List Byte),
    (image.length ≤ 256 →
      ∃ s, loadImage cfg image = some s ∧ (∀ (k : Nat) (h : k < image.length), s.mem.read k = image[k]) ∧
        (∀ k, image.length ≤ k → s.mem.read k = 0#8) ∧ s = { State.reset with mem := s.mem, cfg := cfg }) ∧
      (256 < image.length → loadImage cfg image = none)

/-- The invariant of the core holds at reset and at the start of every run the host may load. -/
def Obligations.LoadedCoreMeetsInvariant : Prop :=
  State.reset.Inv ∧ ∀ (cfg : Config) (image : List Byte) (s : State), loadImage cfg image = some s → s.Inv

/-- 70_reset_and_hazards.md section 3 (R224 to R226; D18, D19): the decimal line of every byte, the exit status, and
that FAULT is read exactly while FAULTED and the final state exactly while not RUNNING. -/
def Obligations.HostReadsOutputAndStatus : Prop :=
  (∀ v : Byte, decimalChars v = Nat.toDigits 10 v.toNat) ∧
    ∀ s : State,
      (s.exitStatus = some 0 ↔ s.status = .halted) ∧ (s.exitStatus = some 1 ↔ s.status = .faulted) ∧
        (s.exitStatus = none ↔ s.status = .running) ∧
        (∀ r, s.hostFault = some r ↔ s.status = .faulted ∧ r = s.faultRec) ∧
        (∀ f, s.hostFinal = some f ↔ s.status ≠ .running ∧ f = (s.regs, s.pc, s.fl, s.mem))

/-! ## Encoding -/

/-- 30_encoding.md sections 2 and 7 (R75, R89): decoding the bytes of an instruction gives it back, with every operand
byte at every value, whatever bytes follow: from a byte list, and from the three bytes Fetch latches. -/
def Obligations.DecodeOfEncodeIsIdentity : Prop :=
  ∀ (cfg : Config) (i : Instr) (rest : List Byte), i.wf cfg = true →
    decodeBytes cfg (encode i ++ rest) = .instr i rest ∧
      ∀ (ir opa opb : Byte) (tail : List Byte), encode i ++ rest = ir :: opa :: opb :: tail →
        decode cfg ir opa opb = .instr i

/-- The other direction: bytes that decode to an instruction are exactly its bytes and what follows, and the
instruction is one the core has. -/
def Obligations.EncodeOfDecodeIsIdentity : Prop :=
  ∀ (cfg : Config) (bytes rest : List Byte) (i : Instr), decodeBytes cfg bytes = .instr i rest →
    i.wf cfg = true ∧ bytes = encode i ++ rest

/-- Words written out from the opcode map of 30_encoding.md section 4 (R78), one or more of each format; bytes other
than LDI, PRN and HLT are general knowledge by the spec's own words (D3, log 8). -/
def Obligations.WordsDecodeAsTheOpcodeMapSays : Prop :=
  decode Config.default 0b00000001#8 0xFF#8 0xFF#8 = .instr .hlt ∧
    decode Config.default 0b10000010#8 0b00000000#8 0b00001000#8 = .instr (.ldi 0#8 8#8) ∧
    decode Config.default 0b01000111#8 0b00000011#8 0x99#8 = .instr (.prn 3#8) ∧
    decode Config.default 0b01010101#8 0b00000010#8 0x99#8 = .instr (.jeq 2#8) ∧
    decode Config.default 0b10100001#8 0b00000100#8 0b00000101#8 = .instr (.sub 4#8 5#8) ∧
    decode Config.default.withLogicExt 0b10101101#8 0b00000110#8 0b00000001#8 = .instr (.shr 6#8 1#8) ∧
    decode Config.default 0b10101101#8 0b00000110#8 0b00000001#8 = .reject (.unmappedAluOp 0xAD#8)

/-- 30_encoding.md section 4 (R79): the sets-PC bit is 1 exactly for CALL, RET, JMP, JEQ and JNE, and the ALU bit
exactly for the ALU table. Which bit is which is D4 (log 22), and the bytes are D3 and D5 (log 8, log 9). -/
def Obligations.OpcodeBitsMarkTheFamilies : Prop :=
  ∀ i : Instr,
    (setsPcBit i.opcode = true ↔
      i = .ret ∨ ∃ r, i = .call r ∨ i = .jmp r ∨ i = .jeq r ∨ i = .jne r) ∧
      (aluBit i.opcode = true ↔
        ∃ a b, i = .add a b ∨ i = .sub a b ∨ i = .mul a b ∨ i = .cmp a b ∨ i = .and a b ∨ i = .or a b ∨
          i = .xor a b ∨ i = .shl a b ∨ i = .shr a b)

/-- 30_encoding.md section 3 (R77) and 40_cycle.md section 2 (R102, D6): an operand byte an instruction does not use is
ignored, whatever its value, and a fetch of it beyond address 255 still faults. That the latches are kept then is the
model's reading of D7 (log 7, log 19). -/
def Obligations.UnusedOperandBytesAreIgnored : Prop :=
  (∀ (cfg : Config) (ir a b a' b' : Byte), operandCount ir = 0 → decode cfg ir a b = decode cfg ir a' b') ∧
    (∀ (cfg : Config) (ir a b b' : Byte), operandCount ir = 1 → decode cfg ir a b = decode cfg ir a b') ∧
    ∀ s : State, s.status = .running → operandCount (s.byteAt 0#8) ≤ 1 → ¬ s.InRange 2 →
      step s = .next (s.raise .memOutOfBounds 256)

/-! ## The step -/

/-- 10_state.md R35: a step happens only when STATUS = RUNNING, and then one always does; HALTED and FAULTED are
left by no step, only by a reset, which leaves RUNNING. -/
def Obligations.StepsHappenExactlyWhileRunning : Prop :=
  (∀ s : State, s.status = .running ∨ s.status = .halted ∨ s.status = .faulted) ∧
    (∀ s : State, (∃ t, step s = .next t) ↔ s.status = .running) ∧
    ∀ (cfg : Config) (image : List Byte) (s : State), loadImage cfg image = some s → s.status = .running

/-- 40_cycle.md section 1 (R100) and D7: when the bytes at pc decode to an instruction, the step is that instruction
run on the state with the bytes latched; if it raises, nothing of the step is kept but STATUS and FAULT, the latches
among it, which is the model's reading of D7 (log 7). -/
def Obligations.StepRunsTheDecodedInstruction : Prop :=
  ∀ (s : State) (i : Instr), s.status = .running → s.InRange 2 → s.instrAtPc = .instr i →
    ∃ p, exec i s.latched = .next p ∧
      (p.status ≠ .faulted → step s = .next p) ∧
      (p.status = .faulted → step s = .next { s with status := .faulted, faultRec := p.faultRec })

/-- 40_cycle.md R101: after a step that raised nothing the latches hold the three bytes at pc, whatever the
instruction's length. Addresses are modulo 256 only where the fetch wraps. -/
def Obligations.FetchLatchesThreeBytes : Prop :=
  ∀ s t : State, step s = .next t → t.status ≠ .faulted →
    t.ir = s.mem.read s.pc.toNat ∧ t.opa = s.mem.read (s.pc + 1#8).toNat ∧ t.opb = s.mem.read (s.pc + 2#8).toNat

/-- 40_cycle.md R109: with the sets-PC bit clear the engine advances pc by operand count + 1, both read from the
opcode byte of the instruction executed; with it set, pc stays as the handler left it. -/
def Obligations.PcAdvancesUnlessTheInstructionSetsIt : Prop :=
  (∀ s t : State, step s = .next t → t.status = .running → setsPcBit (s.byteAt 0#8) = false →
    t.pc = s.pc + BitVec.ofNat 8 (operandCount (s.byteAt 0#8) + 1)) ∧
    ∀ (op : Byte) (h : State → Res State) (s p : State), setsPcBit op = true → h s = .ok p →
      runHandler op h s = .next p

/-- 40_cycle.md section 4 (R108): an instruction ends in one of three ways: normally with STATUS as it was, by `halt`
(HLT only), or by `raise`. What a raise leaves is D7 and D8 (log 19), and that FAULT is kept otherwise is the model's
choice (log 4). -/
def Obligations.ExecEndsInOneOfThreeWays : Prop :=
  ∀ (i : Instr) (s : State), ∃ t, exec i s = .next t ∧
    (t.status = s.status ∧ t.faultRec = s.faultRec ∨
      i = .hlt ∧ t = { s with status := .halted } ∨
      ∃ cause info, t = { s with
        status := .faulted
        faultRec := { cause := cause, pc := s.pc, opcode := s.mem.read s.pc.toNat, info := info } })

/-! ## Faults -/

/-- 60_exceptions.md section 1 (R190, R191) and D7, D8: a step that raises writes STATUS and FAULT and nothing else,
and FAULT holds the address of the faulting instruction and the byte there. That the latches are kept too is the
model's reading of D7 (log 7, log 19). -/
def Obligations.FaultsArePrecise : Prop :=
  ∀ s t : State, step s = .next t → t.status = .faulted →
    t = { s with status := .faulted, faultRec := t.faultRec } ∧
      t.faultRec.pc = s.pc ∧ t.faultRec.opcode = s.mem.read s.pc.toNat

/-- 40_cycle.md section 3 (R104), 42_alu.md section 2 (R165): an opcode byte with ALU bit 1 that is not in ALU_TABLE. The
bytes of the table are D3 and D5 (log 8, log 9), and what a raise leaves is D7 (log 7, log 19). -/
def Obligations.UnmappedAluByteFaults : Prop :=
  ∀ s : State, s.status = .running → s.InRange 2 → aluBit (s.byteAt 0#8) = true →
    s.byteAt 0#8 ∉ [0xA0#8, 0xA1#8, 0xA2#8, 0xA7#8] →
    (s.cfg.aluLogicExt = true → s.byteAt 0#8 ∉ [0xA8#8, 0xAA#8, 0xAB#8, 0xAC#8, 0xAD#8]) →
    step s = .next (s.raise .unmappedAluOp (s.byteAt 0#8).toNat)

/-- 40_cycle.md section 3 (R105): an opcode byte with ALU bit 0 that is in neither table. In particular 0x00, and so
running into zero-filled memory (30_encoding.md R81). The bytes of the table are D3 (log 8), and what a raise leaves is
D7 (log 7, log 19). -/
def Obligations.UnmappedByteIsDecodeFault : Prop :=
  ∀ s : State, s.status = .running → s.InRange 2 → aluBit (s.byteAt 0#8) = false →
    s.byteAt 0#8 ∉ [0x01#8, 0x82#8, 0x47#8, 0x45#8, 0x46#8, 0x50#8, 0x11#8, 0x54#8, 0x55#8, 0x56#8] →
    step s = .next (s.raise .decodeFault (s.byteAt 0#8).toNat)

/-- 40_cycle.md section 2 (R102) and 60_exceptions.md section 3 (R194), D6, D9: under FAULT a step at 254 or 255 raises
MemOutOfBounds(256) before anything else, whatever byte is there (log 20, log 21; what a raise leaves: log 7, log 19). -/
def Obligations.FetchPastTheTopFaultsFirst : Prop :=
  ∀ s : State, s.status = .running → s.cfg.oobPolicy = .fault → 254 ≤ s.pc.toNat →
    step s = .next (s.raise .memOutOfBounds 256)

/-- 40_cycle.md section 4 (R107) and 60_exceptions.md section 3 (R194), D9: the first operand byte of 8 or more that an
instruction uses as a register index, A before B, raises RegOutOfBounds, on every path and before the stack or the
advance can fault. CMP's operands are its own bytes, through the latches (log 15, log 20; what a raise leaves: log 7,
log 19). -/
def Obligations.BadRegisterOperandFaults : Prop :=
  ∀ (s : State) (i : Instr) (r : Byte), s.status = .running → s.InRange 2 → s.instrAtPc = .instr i →
    (regOperands i).find? (fun x => 8 ≤ x.toNat) = some r →
    step s = .next (s.raise .regOutOfBounds r.toNat)

/-- 41_non_alu.md sections 4 to 7 (R133 to R136), D6, D14: under FAULT, PUSH and CALL at SP = 0 raise
StackOutOfBounds(-1); POP (of a register other than 7) and RET at SP = 255, and POP R7 of the value 255, raise
StackOutOfBounds(256) (log 10, log 21; what a raise leaves: D7, log 19). -/
def Obligations.StackOutOfRangeFaults : Prop :=
  ∀ s : State, s.cfg.oobPolicy = .fault →
    (∀ r : Byte, r.toNat < 8 → s.reg 7 = 0#8 →
      exec (.push r) s = .next (s.raise .stackOutOfBounds (-1)) ∧
        exec (.call r) s = .next (s.raise .stackOutOfBounds (-1))) ∧
      (∀ r : Byte, r.toNat < 7 → s.reg 7 = 255#8 → exec (.pop r) s = .next (s.raise .stackOutOfBounds 256)) ∧
      (s.mem.read (s.reg 7).toNat = 255#8 → exec (.pop 7#8) s = .next (s.raise .stackOutOfBounds 256)) ∧
      (s.reg 7 = 255#8 → exec .ret s = .next (s.raise .stackOutOfBounds 256))

/-- 40_cycle.md section 5 (R110), D6: under FAULT a three-byte instruction at 253 whose register operands are good
raises MemOutOfBounds(256) at its advance, and so commits nothing (log 20, log 21; what a raise leaves: log 7, log 19). -/
def Obligations.AdvancePastTheTopFaults : Prop :=
  ∀ (s : State) (i : Instr), s.status = .running → s.cfg.oobPolicy = .fault → s.pc = 253#8 →
    s.instrAtPc = .instr i → instrLength i.opcode = 3 → (∀ r ∈ regOperands i, r.toNat < 8) →
    step s = .next (s.raise .memOutOfBounds 256)

/-- 42_alu.md section 3 (R170 to R175), D5: without ALU_LOGIC_EXT each of the five operations raises UnmappedAluOp of
its byte (log 9, log 18; what a raise leaves: D7, log 19). -/
def Obligations.AbsentExtensionFaults : Prop :=
  ∀ (s : State) (i : Instr), s.cfg.aluLogicExt = false → i.needsLogicExt = true →
    exec i s = .next (s.raise .unmappedAluOp i.opcode.toNat)

/-- 60_exceptions.md section 2 (R192), D6: under WRAP neither MemOutOfBounds nor StackOutOfBounds is ever raised. -/
def Obligations.WrappingCoreNeverGoesOutOfBounds : Prop :=
  ∀ s t : State, s.cfg.oobPolicy = .wrap → step s = .next t → t.status = .faulted →
    t.faultRec.cause ≠ .memOutOfBounds ∧ t.faultRec.cause ≠ .stackOutOfBounds

/-! ## Non-ALU instructions -/

/-- 41_non_alu.md section 1 (R130), D17: HLT sets STATUS to HALTED and leaves everything else, pc among it; and a
step at its byte does exactly that on the latched state. -/
def Obligations.HltHaltsAtItsOwnAddress : Prop :=
  (∀ s : State, exec .hlt s = .next { s with status := .halted }) ∧
    ∀ s : State, s.status = .running → s.InRange 2 → s.byteAt 0#8 = 0x01#8 →
      step s = .next { s.latched with status := .halted }

/-- 41_non_alu.md R131: LDI, its bytes, its effect with any immediate and any register (SP by LDI R7), and its
exceptions. -/
def Obligations.LdiLoadsItsImmediate : Prop :=
  ∀ (s : State) (r imm : Byte),
    encode (.ldi r imm) = [0x82#8, r, imm] ∧
      (∀ h : r.toNat < 8, s.InRange 3 →
        exec (.ldi r imm) s = .next { s with regs := s.regs.set ⟨r.toNat, h⟩ imm, pc := s.pc + 3#8 }) ∧
      (8 ≤ r.toNat → Raises (exec (.ldi r imm) s) .regOutOfBounds r.toNat) ∧
      (r.toNat < 8 → s.cfg.oobPolicy = .fault → s.pc = 253#8 → Raises (exec (.ldi r imm) s) .memOutOfBounds 256)

/-- 41_non_alu.md R132: PRN, its bytes, its effect (the value at the end of OUT, the host's decimal line, no
register, memory or flag change), and its exception, which emits nothing. The line is said with `lineEnd`, whose
characters are the model's choice (log 24): the statement holds whichever they are. -/
def Obligations.PrnEmitsTheRegister : Prop :=
  ∀ (s : State) (r : Byte),
    encode (.prn r) = [0x47#8, r] ∧
      (∀ h : r.toNat < 8, s.InRange 2 →
        ∃ t, exec (.prn r) s = .next t ∧
          t = { s with out := s.out ++ [s.reg ⟨r.toNat, h⟩], pc := s.pc + 2#8 } ∧
          t.hostLines = s.hostLines ++ decimalChars (s.reg ⟨r.toNat, h⟩) ++ lineEnd) ∧
      (8 ≤ r.toNat → Raises (exec (.prn r) s) .regOutOfBounds r.toNat ∧ ∀ t, exec (.prn r) s = .next t → t.out = s.out)

/-- 41_non_alu.md section 4 (R133), D6, D14: PUSH stores at SP - 1; PUSH R7 stores the decremented SP. -/
def Obligations.PushStoresBelowTheTop : Prop :=
  ∀ (s : State) (r : Byte) (h : r.toNat < 8), s.CanPush → s.InRange 2 →
    exec (.push r) s = .next { s with
      regs := s.regs.set 7 (s.reg 7 - 1#8)
      mem := s.mem.write (s.reg 7 - 1#8).toNat (if r.toNat = 7 then s.reg 7 - 1#8 else s.reg ⟨r.toNat, h⟩)
      pc := s.pc + 2#8 }

/-- 41_non_alu.md section 5 (R134), D6, D14: POP loads M[SP] and leaves SP + 1; POP R7 leaves the popped value + 1. -/
def Obligations.PopLoadsTheTop : Prop :=
  ∀ (s : State) (r v w : Byte) (h : r.toNat < 8), v = s.mem.read (s.reg 7).toNat →
    w = (if r.toNat = 7 then v else s.reg 7) → s.CanIncrement w → s.InRange 2 →
    exec (.pop r) s = .next { s with
      regs := (s.regs.set ⟨r.toNat, h⟩ v).set 7 (w + 1#8)
      pc := s.pc + 2#8 }

/-- 41_non_alu.md section 6 (R135), D6, D14: CALL stores pc + 2 at SP - 1 and jumps to the register, CALL R7 to the
decremented SP. -/
def Obligations.CallStacksTheReturnAddress : Prop :=
  ∀ (s : State) (r : Byte) (h : r.toNat < 8), s.CanPush → s.InRange 2 →
    exec (.call r) s = .next { s with
      regs := s.regs.set 7 (s.reg 7 - 1#8)
      mem := s.mem.write (s.reg 7 - 1#8).toNat (s.pc + 2#8)
      pc := if r.toNat = 7 then s.reg 7 - 1#8 else s.reg ⟨r.toNat, h⟩ }

/-- 41_non_alu.md section 7 (R136), D6: RET jumps to M[SP] and leaves SP + 1. -/
def Obligations.RetPopsThePc : Prop :=
  ∀ s : State, s.CanIncrement (s.reg 7) →
    exec .ret s = .next { s with
      regs := s.regs.set 7 (s.reg 7 + 1#8)
      pc := s.mem.read (s.reg 7).toNat }

/-- 41_non_alu.md sections 8 to 10 (R137 to R139): JMP goes to the register; JEQ goes there when fl bit 0 is 1 and JNE
when it is 0, and otherwise each goes to pc + 2. -/
def Obligations.JumpsGoWhereTheRulesSay : Prop :=
  ∀ (s : State) (r : Byte) (h : r.toNat < 8),
    exec (.jmp r) s = .next { s with pc := s.reg ⟨r.toNat, h⟩ } ∧
      (s.InRange 2 →
        exec (.jeq r) s = .next { s with
          pc := if s.fl.getLsbD 0 = true then s.reg ⟨r.toNat, h⟩ else s.pc + 2#8 } ∧
        exec (.jne r) s = .next { s with
          pc := if s.fl.getLsbD 0 = false then s.reg ⟨r.toNat, h⟩ else s.pc + 2#8 })

/-! ## ALU instructions -/

/-- 42_alu.md sections 2 and 4 (R161 to R163, R176): ADD, SUB and MUL write x[a] modulo 256 and nothing else but pc. -/
def Obligations.ArithmeticWrapsModulo256 : Prop :=
  ∀ (s : State) (a b : Byte) (ha : a.toNat < 8) (hb : b.toNat < 8) (u w : Nat), s.InRange 3 →
    u = (s.reg ⟨a.toNat, ha⟩).toNat → w = (s.reg ⟨b.toNat, hb⟩).toNat →
    exec (.add a b) s = .next { s with
      regs := s.regs.set ⟨a.toNat, ha⟩ (BitVec.ofNat 8 ((u + w) % 256)), pc := s.pc + 3#8 } ∧
    exec (.sub a b) s = .next { s with
      regs := s.regs.set ⟨a.toNat, ha⟩ (BitVec.ofNat 8 ((u + (256 - w)) % 256)), pc := s.pc + 3#8 } ∧
    exec (.mul a b) s = .next { s with
      regs := s.regs.set ⟨a.toNat, ha⟩ (BitVec.ofNat 8 ((u * w) % 256)), pc := s.pc + 3#8 }

/-- 42_alu.md section 2 (R164), D15, D24, 90_conflicts.md C4: CMP compares, as unsigned values, the registers its
latched operand bytes name, and writes all of fl; in a step those are the bytes that follow its opcode byte (log 15).
That this byte is 0xA7 is general knowledge by the spec's own words (D3, log 8). -/
def Obligations.CmpSetsExactlyOneFlag : Prop :=
  (∀ (s : State) (a b : Byte) (ha : s.opa.toNat < 8) (hb : s.opb.toNat < 8) (u w : Nat), s.InRange 3 →
    u = (s.reg ⟨s.opa.toNat, ha⟩).toNat → w = (s.reg ⟨s.opb.toNat, hb⟩).toNat →
    exec (.cmp a b) s = .next { s with
      fl := if u = w then 0b00000001#8 else if w < u then 0b00000010#8 else 0b00000100#8
      pc := s.pc + 3#8 }) ∧
    ∀ (s : State) (ha : (s.byteAt 1#8).toNat < 8) (hb : (s.byteAt 2#8).toNat < 8) (u w : Nat),
      s.status = .running → s.InRange 3 → s.byteAt 0#8 = 0xA7#8 →
      u = (s.reg ⟨(s.byteAt 1#8).toNat, ha⟩).toNat → w = (s.reg ⟨(s.byteAt 2#8).toNat, hb⟩).toNat →
      step s = .next { s.latched with
        fl := if u = w then 0b00000001#8 else if w < u then 0b00000010#8 else 0b00000100#8
        pc := s.pc + 3#8 }

/-- 42_alu.md section 3 (R170 to R173), D5: with ALU_LOGIC_EXT, AND, OR and XOR write the bitwise result to x[a],
bit by bit, and nothing else but pc. -/
def Obligations.LogicIsBitwise : Prop :=
  ∀ (s : State) (a b : Byte) (ha : a.toNat < 8) (hb : b.toNat < 8) (u w : Byte), s.cfg.aluLogicExt = true →
    s.InRange 3 → u = s.reg ⟨a.toNat, ha⟩ → w = s.reg ⟨b.toNat, hb⟩ →
    (∃ v : Byte, exec (.and a b) s = .next { s with regs := s.regs.set ⟨a.toNat, ha⟩ v, pc := s.pc + 3#8 } ∧
      ∀ k, v.getLsbD k = (u.getLsbD k && w.getLsbD k)) ∧
    (∃ v : Byte, exec (.or a b) s = .next { s with regs := s.regs.set ⟨a.toNat, ha⟩ v, pc := s.pc + 3#8 } ∧
      ∀ k, v.getLsbD k = (u.getLsbD k || w.getLsbD k)) ∧
    (∃ v : Byte, exec (.xor a b) s = .next { s with regs := s.regs.set ⟨a.toNat, ha⟩ v, pc := s.pc + 3#8 } ∧
      ∀ k, v.getLsbD k = (u.getLsbD k ^^ w.getLsbD k))

/-- 42_alu.md section 3 (R174, R175), D5: with ALU_LOGIC_EXT, SHL and SHR by the whole value of x[b]: amounts of 8 or
more give 0, and SHR is logical. -/
def Obligations.ShiftsAreLogical : Prop :=
  ∀ (s : State) (a b : Byte) (ha : a.toNat < 8) (hb : b.toNat < 8) (u k : Nat), s.cfg.aluLogicExt = true →
    s.InRange 3 → u = (s.reg ⟨a.toNat, ha⟩).toNat → k = (s.reg ⟨b.toNat, hb⟩).toNat →
    exec (.shl a b) s = .next { s with
      regs := s.regs.set ⟨a.toNat, ha⟩ (if 8 ≤ k then 0#8 else BitVec.ofNat 8 (u * 2 ^ k % 256))
      pc := s.pc + 3#8 } ∧
    exec (.shr a b) s = .next { s with
      regs := s.regs.set ⟨a.toNat, ha⟩ (if 8 ≤ k then 0#8 else BitVec.ofNat 8 (u / 2 ^ k))
      pc := s.pc + 3#8 }

/-! ## Frames -/

/-- 10_state.md section 2 (R24, R25): of the registers, LDI and POP may write the one they name; ADD, SUB, MUL, AND,
OR, XOR, SHL and SHR the one operand A names; PUSH, POP, CALL and RET also SP; HLT, PRN, JMP, JEQ, JNE and CMP none. -/
def Obligations.OnlyDestinationRegistersChange : Prop :=
  ∀ (i : Instr) (s t : State) (k : RegIdx), exec i s = .next t → t.reg k ≠ s.reg k →
    (∃ imm, i = .ldi (BitVec.ofNat 8 k.val) imm) ∨ i = .pop (BitVec.ofNat 8 k.val) ∨
      (∃ b, i = .add (BitVec.ofNat 8 k.val) b ∨ i = .sub (BitVec.ofNat 8 k.val) b ∨
        i = .mul (BitVec.ofNat 8 k.val) b ∨ i = .and (BitVec.ofNat 8 k.val) b ∨ i = .or (BitVec.ofNat 8 k.val) b ∨
        i = .xor (BitVec.ofNat 8 k.val) b ∨ i = .shl (BitVec.ofNat 8 k.val) b ∨ i = .shr (BitVec.ofNat 8 k.val) b) ∨
      (k = 7 ∧ (i = .ret ∨ ∃ r, i = .push r ∨ i = .pop r ∨ i = .call r))

/-- Every byte of memory is unchanged but the one PUSH or CALL stores to, at the address the meaning computes
(`State.pushSlot`); the others store nothing (10_state.md section 1, R21; 20_memory.md section 1, R50). -/
def Obligations.MemoryChangesOnlyAtThePushSlot : Prop :=
  ∀ (i : Instr) (s t : State), exec i s = .next t →
    ((∃ r, i = .push r ∨ i = .call r) → ∀ a : Nat, (a : Int) ≠ s.pushSlot → t.mem.read a = s.mem.read a) ∧
      ((∀ r, i ≠ .push r ∧ i ≠ .call r) → ∀ a : Nat, t.mem.read a = s.mem.read a)

/-- What no instruction changes, and what only one does: the latches and the parameters are unchanged by all; fl but by
CMP; OUT but by PRN; STATUS but by HLT and by a raise; FAULT but by a raise; pc by HLT and by a raise not at all
(10_state.md R29, R36, R37; 60_exceptions.md R190). That FAULT is kept without a raise is the model's choice (log 4). -/
def Obligations.OtherStateIsFramed : Prop :=
  ∀ (i : Instr) (s t : State), exec i s = .next t →
    t.ir = s.ir ∧ t.opa = s.opa ∧ t.opb = s.opb ∧ t.cfg = s.cfg ∧
      ((∀ a b, i ≠ .cmp a b) → t.fl = s.fl) ∧ ((∀ r, i ≠ .prn r) → t.out = s.out) ∧
      (i ≠ .hlt → t.status ≠ .faulted → t.status = s.status) ∧
      (t.status ≠ .faulted → t.faultRec = s.faultRec) ∧
      (i = .hlt → t.pc = s.pc) ∧ (s.status ≠ .faulted → t.status = .faulted → t.pc = s.pc)

/-! ## Rules about the whole machine -/

/-- The invariant: memory stays in canonical form, fl stays 0, 1, 2 or 4, and a FAULTED core's record points at the
faulting instruction with a cause and info that 60_exceptions.md section 2 (R192) allows it. The
bytes that the record's rules name are D3 and D5 (log 8, log 9), and the record is D8 (log 19). -/
def Obligations.EveryStepKeepsTheInvariant : Prop :=
  ∀ s t : State, s.Inv → step s = .next t → t.Inv

/-- 10_state.md R21: memory is zero-filled, then loaded once from address 0, and while the core runs only a PUSH
or a CALL changes it. -/
def Obligations.OnlyPushAndCallWriteMemory : Prop :=
  (∀ a : Nat, State.reset.mem.read a = 0#8) ∧
    (∀ (cfg : Config) (image : List Byte) (s : State), loadImage cfg image = some s →
      ∀ (k : Nat) (h : k < image.length), s.mem.read k = image[k]) ∧
    ∀ s t : State, step s = .next t → t.mem ≠ s.mem →
      ∃ r, s.instrAtPc = .instr (.push r) ∨ s.instrAtPc = .instr (.call r)

/-- 10_state.md R30: fl is set by CMP alone and persists until the next; CMP overwrites all of it, so that the fl
before makes no difference, and leaves exactly one of 0x01, 0x02 and 0x04. -/
def Obligations.OnlyCmpWritesTheFlags : Prop :=
  (∀ (i : Instr) (s t : State), exec i s = .next t → (∀ a b, i ≠ .cmp a b) → t.fl = s.fl) ∧
    ∀ (a b v : Byte) (s t : State), exec (.cmp a b) s = .next t → s.status ≠ .faulted → t.status ≠ .faulted →
      (t.fl = 0x01#8 ∨ t.fl = 0x02#8 ∨ t.fl = 0x04#8) ∧ exec (.cmp a b) { s with fl := v } = .next t

/-- 10_state.md section 7 (R37): a step appends to OUT exactly when it is a PRN (0x47) that raised nothing, and then the
one value of the register its operand byte names; OUT is never shortened or reordered. -/
def Obligations.OutGrowsByPrnAlone : Prop :=
  ∀ s t : State, step s = .next t →
    (s.byteAt 0#8 = 0x47#8 ∧ t.status ≠ .faulted ∧
        ∃ h : (s.byteAt 1#8).toNat < 8, t.out = s.out ++ [s.reg ⟨(s.byteAt 1#8).toNat, h⟩]) ∨
      ((s.byteAt 0#8 ≠ 0x47#8 ∨ t.status = .faulted) ∧ t.out = s.out)

/-- 00_scope.md section 3 (R4): OOB_POLICY and ALU_LOGIC_EXT are arguments of the step, so no step changes them. That
they stand in the state is the model's choice (log 1). -/
def Obligations.ParametersNeverChange : Prop :=
  ∀ s t : State, step s = .next t → t.cfg = s.cfg

/-- 20_memory.md section 5 (R59): MemRead gives what the last MemWrite to the address wrote, and a MemWrite changes no
other address; outside 0..255 both raise (R52, R53). -/
def Obligations.MemReadGivesTheLastMemWrite : Prop :=
  ∀ (s : State) (a : Int) (v : Byte), s.mem.wf = true →
    ((0 ≤ a ∧ a ≤ 255) →
      ∃ t, s.memWrite a v = .ok t ∧ t.memRead a = .ok v ∧ t.mem.wf = true ∧
        (∀ b : Int, b ≠ a → t.memRead b = s.memRead b) ∧ t = { s with mem := t.mem }) ∧
      (¬ (0 ≤ a ∧ a ≤ 255) →
        s.memWrite a v = .raise .memOutOfBounds a ∧ s.memRead a = .raise .memOutOfBounds a)

/-- 20_memory.md section 5 (R62), 70_reset_and_hazards.md section 4 (R228), D21: a byte a PUSH stores is what the very
next fetch latches from that address. -/
def Obligations.NextFetchSeesThePushedByte : Prop :=
  ∀ (s t u : State) (r : Byte) (h : r.toNat < 8), s.mem.wf = true → exec (.push r) s = .next t →
    t.status = .running → (t.pc.toNat : Int) = s.pushSlot → t.fetch = .ok u →
    u.ir = if r.toNat = 7 then s.reg 7 - 1#8 else s.reg ⟨r.toNat, h⟩

/-- 41_non_alu.md section 11 (R140): PUSH then POP of the same register, R7 too, leaves every register as it was. -/
def Obligations.PushThenPopRestoresTheRegisters : Prop :=
  ∀ (s t u : State) (r : Byte), s.mem.wf = true → exec (.push r) s = .next t → t.status = .running →
    exec (.pop r) t = .next u → u.status = .running → u.regs = s.regs

/-- 41_non_alu.md section 11 (R140): RET from a subroutine that left SP and the stacked return address as CALL left
them goes to the instruction after the CALL, with SP as it was before the CALL. -/
def Obligations.RetReturnsBehindTheCall : Prop :=
  ∀ (s t q u : State) (r : Byte), s.mem.wf = true → s.InRange 2 → exec (.call r) s = .next t →
    t.status = .running → q.reg 7 = t.reg 7 → q.mem.read (t.reg 7).toNat = t.mem.read (t.reg 7).toNat →
    exec .ret q = .next u → q.status = .running → u.status = .running →
    u.pc = s.pc + 2#8 ∧ u.reg 7 = s.reg 7
end

