-- ==== Sys2Proof/Laws/Encoding.lean ====
section
/-! SUPPORT. The fields of each opcode byte, and what Classify answers: on the opcode of an instruction, and in general. -/

namespace Sys2Proof

/-! ## The fields of the opcode bytes (30_encoding.md R78) -/

@[simp] theorem operandCount_hlt : operandCount Opcode.hlt = 0 := by decide
@[simp] theorem aluBit_hlt : aluBit Opcode.hlt = false := by decide
@[simp] theorem setsPcBit_hlt : setsPcBit Opcode.hlt = false := by decide
@[simp] theorem operandCount_ldi : operandCount Opcode.ldi = 2 := by decide
@[simp] theorem aluBit_ldi : aluBit Opcode.ldi = false := by decide
@[simp] theorem setsPcBit_ldi : setsPcBit Opcode.ldi = false := by decide
@[simp] theorem operandCount_prn : operandCount Opcode.prn = 1 := by decide
@[simp] theorem aluBit_prn : aluBit Opcode.prn = false := by decide
@[simp] theorem setsPcBit_prn : setsPcBit Opcode.prn = false := by decide
@[simp] theorem operandCount_push : operandCount Opcode.push = 1 := by decide
@[simp] theorem aluBit_push : aluBit Opcode.push = false := by decide
@[simp] theorem setsPcBit_push : setsPcBit Opcode.push = false := by decide
@[simp] theorem operandCount_pop : operandCount Opcode.pop = 1 := by decide
@[simp] theorem aluBit_pop : aluBit Opcode.pop = false := by decide
@[simp] theorem setsPcBit_pop : setsPcBit Opcode.pop = false := by decide
@[simp] theorem operandCount_call : operandCount Opcode.call = 1 := by decide
@[simp] theorem aluBit_call : aluBit Opcode.call = false := by decide
@[simp] theorem setsPcBit_call : setsPcBit Opcode.call = true := by decide
@[simp] theorem operandCount_ret : operandCount Opcode.ret = 0 := by decide
@[simp] theorem aluBit_ret : aluBit Opcode.ret = false := by decide
@[simp] theorem setsPcBit_ret : setsPcBit Opcode.ret = true := by decide
@[simp] theorem operandCount_jmp : operandCount Opcode.jmp = 1 := by decide
@[simp] theorem aluBit_jmp : aluBit Opcode.jmp = false := by decide
@[simp] theorem setsPcBit_jmp : setsPcBit Opcode.jmp = true := by decide
@[simp] theorem operandCount_jeq : operandCount Opcode.jeq = 1 := by decide
@[simp] theorem aluBit_jeq : aluBit Opcode.jeq = false := by decide
@[simp] theorem setsPcBit_jeq : setsPcBit Opcode.jeq = true := by decide
@[simp] theorem operandCount_jne : operandCount Opcode.jne = 1 := by decide
@[simp] theorem aluBit_jne : aluBit Opcode.jne = false := by decide
@[simp] theorem setsPcBit_jne : setsPcBit Opcode.jne = true := by decide
@[simp] theorem operandCount_add : operandCount Opcode.add = 2 := by decide
@[simp] theorem aluBit_add : aluBit Opcode.add = true := by decide
@[simp] theorem setsPcBit_add : setsPcBit Opcode.add = false := by decide
@[simp] theorem operandCount_sub : operandCount Opcode.sub = 2 := by decide
@[simp] theorem aluBit_sub : aluBit Opcode.sub = true := by decide
@[simp] theorem setsPcBit_sub : setsPcBit Opcode.sub = false := by decide
@[simp] theorem operandCount_mul : operandCount Opcode.mul = 2 := by decide
@[simp] theorem aluBit_mul : aluBit Opcode.mul = true := by decide
@[simp] theorem setsPcBit_mul : setsPcBit Opcode.mul = false := by decide
@[simp] theorem operandCount_cmp : operandCount Opcode.cmp = 2 := by decide
@[simp] theorem aluBit_cmp : aluBit Opcode.cmp = true := by decide
@[simp] theorem setsPcBit_cmp : setsPcBit Opcode.cmp = false := by decide
@[simp] theorem operandCount_and : operandCount Opcode.and = 2 := by decide
@[simp] theorem aluBit_and : aluBit Opcode.and = true := by decide
@[simp] theorem setsPcBit_and : setsPcBit Opcode.and = false := by decide
@[simp] theorem operandCount_or : operandCount Opcode.or = 2 := by decide
@[simp] theorem aluBit_or : aluBit Opcode.or = true := by decide
@[simp] theorem setsPcBit_or : setsPcBit Opcode.or = false := by decide
@[simp] theorem operandCount_xor : operandCount Opcode.xor = 2 := by decide
@[simp] theorem aluBit_xor : aluBit Opcode.xor = true := by decide
@[simp] theorem setsPcBit_xor : setsPcBit Opcode.xor = false := by decide
@[simp] theorem operandCount_shl : operandCount Opcode.shl = 2 := by decide
@[simp] theorem aluBit_shl : aluBit Opcode.shl = true := by decide
@[simp] theorem setsPcBit_shl : setsPcBit Opcode.shl = false := by decide
@[simp] theorem operandCount_shr : operandCount Opcode.shr = 2 := by decide
@[simp] theorem aluBit_shr : aluBit Opcode.shr = true := by decide
@[simp] theorem setsPcBit_shr : setsPcBit Opcode.shr = false := by decide

/-! ## Lookup and Classify -/

/-- A row found is a row of the table, keyed by the byte looked up. -/
theorem lookupRow_eq_some {t : List OpRow} {op : Byte} {r : OpRow} (h : lookupRow t op = some r) :
    r ∈ t ∧ r.opcode = op := by
  induction t with
  | nil => cases h
  | cons x xs ih =>
    unfold lookupRow at h
    split at h
    · cases h; exact ⟨List.mem_cons_self, ‹_›⟩
    · exact ⟨List.mem_cons_of_mem _ (ih h).1, (ih h).2⟩

/-- No row is found exactly when no row of the table has the byte as its key. -/
theorem lookupRow_eq_none {t : List OpRow} {op : Byte} : lookupRow t op = none ↔ op ∉ t.map (·.opcode) := by
  induction t with
  | nil => simp [lookupRow]
  | cons x xs ih =>
    by_cases h : x.opcode = op
    · simp [lookupRow, h]
    · have h' : ¬ op = x.opcode := fun e => h e.symm
      simp [lookupRow, h, h', ih]

/-- The byte Classify answers a row for is the row's key, and the row stands in the table its ALU bit selects. -/
theorem classify_eq_row {cfg : Config} {op : Byte} {r : OpRow} (h : classify cfg op = .row r) :
    r.opcode = op ∧ (aluBit op = true ∧ r ∈ aluTable cfg ∨ aluBit op = false ∧ r ∈ nonAluTable) := by
  unfold classify at h
  split at h <;> split at h <;> cases h
  · exact ⟨(lookupRow_eq_some ‹_›).2, .inl ⟨‹_›, (lookupRow_eq_some ‹_›).1⟩⟩
  · exact ⟨(lookupRow_eq_some ‹_›).2, .inr ⟨by simpa using ‹¬ aluBit op = true›, (lookupRow_eq_some ‹_›).1⟩⟩

theorem classify_reject_alu {cfg : Config} {op : Byte} (ha : aluBit op = true)
    (h : op ∉ (aluTable cfg).map (·.opcode)) : classify cfg op = .reject (.unmappedAluOp op) := by
  simp [classify, ha, lookupRow_eq_none.mpr h]

theorem classify_reject_nonAlu {cfg : Config} {op : Byte} (ha : aluBit op = false)
    (h : op ∉ nonAluTable.map (·.opcode)) : classify cfg op = .reject (.decodeFault op) := by
  simp [classify, ha, lookupRow_eq_none.mpr h]

theorem classify_hlt (cfg : Config) :
    classify cfg Opcode.hlt = .row ⟨Opcode.hlt, fun _ _ => .hlt⟩ := by
  rw [classify, aluBit_hlt, if_neg (by decide)]; rfl
theorem classify_ldi (cfg : Config) :
    classify cfg Opcode.ldi = .row ⟨Opcode.ldi, fun opa opb => .ldi opa opb⟩ := by
  rw [classify, aluBit_ldi, if_neg (by decide)]; rfl
theorem classify_prn (cfg : Config) :
    classify cfg Opcode.prn = .row ⟨Opcode.prn, fun opa _ => .prn opa⟩ := by
  rw [classify, aluBit_prn, if_neg (by decide)]; rfl
theorem classify_push (cfg : Config) :
    classify cfg Opcode.push = .row ⟨Opcode.push, fun opa _ => .push opa⟩ := by
  rw [classify, aluBit_push, if_neg (by decide)]; rfl
theorem classify_pop (cfg : Config) :
    classify cfg Opcode.pop = .row ⟨Opcode.pop, fun opa _ => .pop opa⟩ := by
  rw [classify, aluBit_pop, if_neg (by decide)]; rfl
theorem classify_call (cfg : Config) :
    classify cfg Opcode.call = .row ⟨Opcode.call, fun opa _ => .call opa⟩ := by
  rw [classify, aluBit_call, if_neg (by decide)]; rfl
theorem classify_ret (cfg : Config) :
    classify cfg Opcode.ret = .row ⟨Opcode.ret, fun _ _ => .ret⟩ := by
  rw [classify, aluBit_ret, if_neg (by decide)]; rfl
theorem classify_jmp (cfg : Config) :
    classify cfg Opcode.jmp = .row ⟨Opcode.jmp, fun opa _ => .jmp opa⟩ := by
  rw [classify, aluBit_jmp, if_neg (by decide)]; rfl
theorem classify_jeq (cfg : Config) :
    classify cfg Opcode.jeq = .row ⟨Opcode.jeq, fun opa _ => .jeq opa⟩ := by
  rw [classify, aluBit_jeq, if_neg (by decide)]; rfl
theorem classify_jne (cfg : Config) :
    classify cfg Opcode.jne = .row ⟨Opcode.jne, fun opa _ => .jne opa⟩ := by
  rw [classify, aluBit_jne, if_neg (by decide)]; rfl
theorem classify_add (cfg : Config) :
    classify cfg Opcode.add = .row ⟨Opcode.add, fun opa opb => .add opa opb⟩ := by
  rw [classify, aluBit_add, if_pos rfl, aluTable]; cases cfg.aluLogicExt <;> rfl
theorem classify_sub (cfg : Config) :
    classify cfg Opcode.sub = .row ⟨Opcode.sub, fun opa opb => .sub opa opb⟩ := by
  rw [classify, aluBit_sub, if_pos rfl, aluTable]; cases cfg.aluLogicExt <;> rfl
theorem classify_mul (cfg : Config) :
    classify cfg Opcode.mul = .row ⟨Opcode.mul, fun opa opb => .mul opa opb⟩ := by
  rw [classify, aluBit_mul, if_pos rfl, aluTable]; cases cfg.aluLogicExt <;> rfl
theorem classify_cmp (cfg : Config) :
    classify cfg Opcode.cmp = .row ⟨Opcode.cmp, fun opa opb => .cmp opa opb⟩ := by
  rw [classify, aluBit_cmp, if_pos rfl, aluTable]; cases cfg.aluLogicExt <;> rfl
theorem classify_and (cfg : Config) (h : cfg.aluLogicExt = true) :
    classify cfg Opcode.and = .row ⟨Opcode.and, fun opa opb => .and opa opb⟩ := by
  rw [classify, aluBit_and, if_pos rfl, aluTable, if_pos h]; rfl
theorem classify_or (cfg : Config) (h : cfg.aluLogicExt = true) :
    classify cfg Opcode.or = .row ⟨Opcode.or, fun opa opb => .or opa opb⟩ := by
  rw [classify, aluBit_or, if_pos rfl, aluTable, if_pos h]; rfl
theorem classify_xor (cfg : Config) (h : cfg.aluLogicExt = true) :
    classify cfg Opcode.xor = .row ⟨Opcode.xor, fun opa opb => .xor opa opb⟩ := by
  rw [classify, aluBit_xor, if_pos rfl, aluTable, if_pos h]; rfl
theorem classify_shl (cfg : Config) (h : cfg.aluLogicExt = true) :
    classify cfg Opcode.shl = .row ⟨Opcode.shl, fun opa opb => .shl opa opb⟩ := by
  rw [classify, aluBit_shl, if_pos rfl, aluTable, if_pos h]; rfl
theorem classify_shr (cfg : Config) (h : cfg.aluLogicExt = true) :
    classify cfg Opcode.shr = .row ⟨Opcode.shr, fun opa opb => .shr opa opb⟩ := by
  rw [classify, aluBit_shr, if_pos rfl, aluTable, if_pos h]; rfl

end Sys2Proof
end

