-- ==== Sys2Proof/Laws/State.lean ====
section
/-! SUPPORT. One lemma per field per update of the state, and the laws of the register file. -/

namespace Sys2Proof.Machine

/-! ## setReg -/

@[simp] theorem State.setReg_regs (s : State) (i : RegIdx) (v : Byte) : (s.setReg i v).regs = s.regs.set i v := rfl
@[simp] theorem State.setReg_pc (s : State) (i : RegIdx) (v : Byte) : (s.setReg i v).pc = s.pc := rfl
@[simp] theorem State.setReg_fl (s : State) (i : RegIdx) (v : Byte) : (s.setReg i v).fl = s.fl := rfl
@[simp] theorem State.setReg_mem (s : State) (i : RegIdx) (v : Byte) : (s.setReg i v).mem = s.mem := rfl
@[simp] theorem State.setReg_ir (s : State) (i : RegIdx) (v : Byte) : (s.setReg i v).ir = s.ir := rfl
@[simp] theorem State.setReg_opa (s : State) (i : RegIdx) (v : Byte) : (s.setReg i v).opa = s.opa := rfl
@[simp] theorem State.setReg_opb (s : State) (i : RegIdx) (v : Byte) : (s.setReg i v).opb = s.opb := rfl
@[simp] theorem State.setReg_status (s : State) (i : RegIdx) (v : Byte) : (s.setReg i v).status = s.status := rfl
@[simp] theorem State.setReg_faultRec (s : State) (i : RegIdx) (v : Byte) : (s.setReg i v).faultRec = s.faultRec := rfl
@[simp] theorem State.setReg_out (s : State) (i : RegIdx) (v : Byte) : (s.setReg i v).out = s.out := rfl
@[simp] theorem State.setReg_cfg (s : State) (i : RegIdx) (v : Byte) : (s.setReg i v).cfg = s.cfg := rfl

/-! ## setPc -/

@[simp] theorem State.setPc_regs (s : State) (t : Byte) : (s.setPc t).regs = s.regs := rfl
@[simp] theorem State.setPc_pc (s : State) (t : Byte) : (s.setPc t).pc = t := rfl
@[simp] theorem State.setPc_fl (s : State) (t : Byte) : (s.setPc t).fl = s.fl := rfl
@[simp] theorem State.setPc_mem (s : State) (t : Byte) : (s.setPc t).mem = s.mem := rfl
@[simp] theorem State.setPc_ir (s : State) (t : Byte) : (s.setPc t).ir = s.ir := rfl
@[simp] theorem State.setPc_opa (s : State) (t : Byte) : (s.setPc t).opa = s.opa := rfl
@[simp] theorem State.setPc_opb (s : State) (t : Byte) : (s.setPc t).opb = s.opb := rfl
@[simp] theorem State.setPc_status (s : State) (t : Byte) : (s.setPc t).status = s.status := rfl
@[simp] theorem State.setPc_faultRec (s : State) (t : Byte) : (s.setPc t).faultRec = s.faultRec := rfl
@[simp] theorem State.setPc_out (s : State) (t : Byte) : (s.setPc t).out = s.out := rfl
@[simp] theorem State.setPc_cfg (s : State) (t : Byte) : (s.setPc t).cfg = s.cfg := rfl

/-! ## setFl -/

@[simp] theorem State.setFl_regs (s : State) (v : Byte) : (s.setFl v).regs = s.regs := rfl
@[simp] theorem State.setFl_pc (s : State) (v : Byte) : (s.setFl v).pc = s.pc := rfl
@[simp] theorem State.setFl_fl (s : State) (v : Byte) : (s.setFl v).fl = v := rfl
@[simp] theorem State.setFl_mem (s : State) (v : Byte) : (s.setFl v).mem = s.mem := rfl
@[simp] theorem State.setFl_ir (s : State) (v : Byte) : (s.setFl v).ir = s.ir := rfl
@[simp] theorem State.setFl_opa (s : State) (v : Byte) : (s.setFl v).opa = s.opa := rfl
@[simp] theorem State.setFl_opb (s : State) (v : Byte) : (s.setFl v).opb = s.opb := rfl
@[simp] theorem State.setFl_status (s : State) (v : Byte) : (s.setFl v).status = s.status := rfl
@[simp] theorem State.setFl_faultRec (s : State) (v : Byte) : (s.setFl v).faultRec = s.faultRec := rfl
@[simp] theorem State.setFl_out (s : State) (v : Byte) : (s.setFl v).out = s.out := rfl
@[simp] theorem State.setFl_cfg (s : State) (v : Byte) : (s.setFl v).cfg = s.cfg := rfl

/-! ## emit -/

@[simp] theorem State.emit_regs (s : State) (v : Byte) : (s.emit v).regs = s.regs := rfl
@[simp] theorem State.emit_pc (s : State) (v : Byte) : (s.emit v).pc = s.pc := rfl
@[simp] theorem State.emit_fl (s : State) (v : Byte) : (s.emit v).fl = s.fl := rfl
@[simp] theorem State.emit_mem (s : State) (v : Byte) : (s.emit v).mem = s.mem := rfl
@[simp] theorem State.emit_ir (s : State) (v : Byte) : (s.emit v).ir = s.ir := rfl
@[simp] theorem State.emit_opa (s : State) (v : Byte) : (s.emit v).opa = s.opa := rfl
@[simp] theorem State.emit_opb (s : State) (v : Byte) : (s.emit v).opb = s.opb := rfl
@[simp] theorem State.emit_status (s : State) (v : Byte) : (s.emit v).status = s.status := rfl
@[simp] theorem State.emit_faultRec (s : State) (v : Byte) : (s.emit v).faultRec = s.faultRec := rfl
@[simp] theorem State.emit_out (s : State) (v : Byte) : (s.emit v).out = s.out ++ [v] := rfl
@[simp] theorem State.emit_cfg (s : State) (v : Byte) : (s.emit v).cfg = s.cfg := rfl

/-! ## halt -/

@[simp] theorem State.halt_regs (s : State) : (s.halt).regs = s.regs := rfl
@[simp] theorem State.halt_pc (s : State) : (s.halt).pc = s.pc := rfl
@[simp] theorem State.halt_fl (s : State) : (s.halt).fl = s.fl := rfl
@[simp] theorem State.halt_mem (s : State) : (s.halt).mem = s.mem := rfl
@[simp] theorem State.halt_ir (s : State) : (s.halt).ir = s.ir := rfl
@[simp] theorem State.halt_opa (s : State) : (s.halt).opa = s.opa := rfl
@[simp] theorem State.halt_opb (s : State) : (s.halt).opb = s.opb := rfl
@[simp] theorem State.halt_status (s : State) : (s.halt).status = .halted := rfl
@[simp] theorem State.halt_faultRec (s : State) : (s.halt).faultRec = s.faultRec := rfl
@[simp] theorem State.halt_out (s : State) : (s.halt).out = s.out := rfl
@[simp] theorem State.halt_cfg (s : State) : (s.halt).cfg = s.cfg := rfl

/-! ## raise -/

@[simp] theorem State.raise_regs (s : State) (c : FaultCause) (n : Int) : (s.raise c n).regs = s.regs := rfl
@[simp] theorem State.raise_pc (s : State) (c : FaultCause) (n : Int) : (s.raise c n).pc = s.pc := rfl
@[simp] theorem State.raise_fl (s : State) (c : FaultCause) (n : Int) : (s.raise c n).fl = s.fl := rfl
@[simp] theorem State.raise_mem (s : State) (c : FaultCause) (n : Int) : (s.raise c n).mem = s.mem := rfl
@[simp] theorem State.raise_ir (s : State) (c : FaultCause) (n : Int) : (s.raise c n).ir = s.ir := rfl
@[simp] theorem State.raise_opa (s : State) (c : FaultCause) (n : Int) : (s.raise c n).opa = s.opa := rfl
@[simp] theorem State.raise_opb (s : State) (c : FaultCause) (n : Int) : (s.raise c n).opb = s.opb := rfl
@[simp] theorem State.raise_status (s : State) (c : FaultCause) (n : Int) : (s.raise c n).status = .faulted := rfl
@[simp] theorem State.raise_faultRec (s : State) (c : FaultCause) (n : Int) : (s.raise c n).faultRec = { cause := c, pc := s.pc, opcode := s.mem.read s.pc.toNat, info := n } := rfl
@[simp] theorem State.raise_out (s : State) (c : FaultCause) (n : Int) : (s.raise c n).out = s.out := rfl
@[simp] theorem State.raise_cfg (s : State) (c : FaultCause) (n : Int) : (s.raise c n).cfg = s.cfg := rfl

/-! ## latched -/

@[simp] theorem State.latched_regs (s : State) : (s.latched).regs = s.regs := rfl
@[simp] theorem State.latched_pc (s : State) : (s.latched).pc = s.pc := rfl
@[simp] theorem State.latched_fl (s : State) : (s.latched).fl = s.fl := rfl
@[simp] theorem State.latched_mem (s : State) : (s.latched).mem = s.mem := rfl
@[simp] theorem State.latched_ir (s : State) : (s.latched).ir = s.byteAt 0#8 := rfl
@[simp] theorem State.latched_opa (s : State) : (s.latched).opa = s.byteAt 1#8 := rfl
@[simp] theorem State.latched_opb (s : State) : (s.latched).opb = s.byteAt 2#8 := rfl
@[simp] theorem State.latched_status (s : State) : (s.latched).status = s.status := rfl
@[simp] theorem State.latched_faultRec (s : State) : (s.latched).faultRec = s.faultRec := rfl
@[simp] theorem State.latched_out (s : State) : (s.latched).out = s.out := rfl
@[simp] theorem State.latched_cfg (s : State) : (s.latched).cfg = s.cfg := rfl

/-! ## The register file -/

/-- A register reads as it was last written, and a write leaves the others alone (10_state.md R22). -/
@[simp] theorem RegFile.get_set (f : RegFile) (i j : RegIdx) (v : Byte) :
    (f.set i v).get j = if j = i then v else f.get j := by
  fin_cases i <;> fin_cases j <;> rfl

theorem RegFile.get_set_self (f : RegFile) (i : RegIdx) (v : Byte) : (f.set i v).get i = v := by simp

theorem RegFile.get_set_ne (f : RegFile) {i j : RegIdx} (v : Byte) (h : j ≠ i) : (f.set i v).get j = f.get j := by
  simp [h]

@[simp] theorem RegFile.set_set (f : RegFile) (i : RegIdx) (v w : Byte) : (f.set i v).set i w = f.set i w := by
  fin_cases i <;> rfl

/-- Two register files that read alike are equal. -/
theorem RegFile.ext_get {f g : RegFile} (h : ∀ k, f.get k = g.get k) : f = g := by
  cases f; cases g
  exact RegFile.mk.injEq .. ▸ ⟨h 0, h 1, h 2, h 3, h 4, h 5, h 6, h 7⟩

@[simp] theorem State.setReg_reg (s : State) (i j : RegIdx) (v : Byte) :
    (s.setReg i v).reg j = if j = i then v else s.reg j := RegFile.get_set s.regs i j v

@[simp] theorem State.setPc_reg (s : State) (t : Byte) (j : RegIdx) : (s.setPc t).reg j = s.reg j := rfl
@[simp] theorem State.setFl_reg (s : State) (v : Byte) (j : RegIdx) : (s.setFl v).reg j = s.reg j := rfl
@[simp] theorem State.emit_reg (s : State) (v : Byte) (j : RegIdx) : (s.emit v).reg j = s.reg j := rfl
@[simp] theorem State.halt_reg (s : State) (j : RegIdx) : (s.halt).reg j = s.reg j := rfl
@[simp] theorem State.raise_reg (s : State) (c : FaultCause) (n : Int) (j : RegIdx) : (s.raise c n).reg j = s.reg j := rfl
@[simp] theorem State.latched_reg (s : State) (j : RegIdx) : (s.latched).reg j = s.reg j := rfl

end Sys2Proof.Machine
end

