-- ==== Sys2Proof/Laws/Memory.lean ====
section
/-! SUPPORT. The laws of memory: read after write, and that every write keeps the canonical form. -/

namespace Sys2Proof.Machine

theorem Memory.wfFrom_cons {lo k : Nat} {v : Byte} {m : Memory} :
    Memory.wfFrom lo ((k, v) :: m) = true ↔ lo ≤ k ∧ k < memSize ∧ v ≠ 0#8 ∧ Memory.wfFrom (k + 1) m = true := by
  simp [Memory.wfFrom, and_assoc]

/-- A canonical memory is canonical from any lower bound. -/
theorem Memory.wfFrom_mono {lo lo' : Nat} {m : Memory} (h : lo ≤ lo') (hm : Memory.wfFrom lo' m = true) :
    Memory.wfFrom lo m = true := by
  cases m with
  | nil => rfl
  | cons c m =>
    obtain ⟨k, v⟩ := c
    rw [Memory.wfFrom_cons] at hm ⊢
    exact ⟨h.trans hm.1, hm.2⟩

/-- Below its lower bound a canonical memory reads as zero. -/
theorem Memory.read_below {lo a : Nat} {m : Memory} (hm : Memory.wfFrom lo m = true) (ha : a < lo) :
    m.read a = 0#8 := by
  induction m generalizing lo with
  | nil => rfl
  | cons c m ih =>
    obtain ⟨k, v⟩ := c
    rw [Memory.wfFrom_cons] at hm
    have hk : k ≠ a := by omega
    simpa [Memory.read, hk] using ih hm.2.2.2 (by omega)

/-- A write leaves every other address alone, in any memory. -/
theorem Memory.read_write_ne (m : Memory) {a b : Nat} (v : Byte) (h : b ≠ a) : (m.write a v).read b = m.read b := by
  induction m with
  | nil => by_cases hv : v = 0#8 <;> simp [Memory.write, Memory.read, hv, h.symm]
  | cons c m ih =>
    obtain ⟨k, w⟩ := c
    by_cases hlt : a < k
    · by_cases hv : v = 0#8 <;> simp [Memory.write, Memory.read, hlt, hv, h.symm]
    · by_cases heq : a = k
      · subst heq
        by_cases hv : v = 0#8 <;> simp [Memory.write, Memory.read, hv, h.symm]
      · simp [Memory.write, Memory.read, hlt, heq, ih]

/-- The byte written reads back, in a canonical memory. -/
theorem Memory.read_write_self {lo : Nat} {m : Memory} (hm : Memory.wfFrom lo m = true) (a : Nat) (v : Byte) :
    (m.write a v).read a = v := by
  induction m generalizing lo with
  | nil => by_cases hv : v = 0#8 <;> simp [Memory.write, Memory.read, hv]
  | cons c m ih =>
    obtain ⟨k, w⟩ := c
    rw [Memory.wfFrom_cons] at hm
    by_cases hlt : a < k
    · by_cases hv : v = 0#8
      · have hk : k ≠ a := by omega
        simpa [Memory.write, Memory.read, hlt, hv, hk] using Memory.read_below hm.2.2.2 (by omega)
      · simp [Memory.write, Memory.read, hlt, hv]
    · by_cases heq : a = k
      · subst heq
        by_cases hv : v = 0#8
        · simpa [Memory.write, hv] using Memory.read_below hm.2.2.2 (by omega)
        · simp [Memory.write, Memory.read, hv]
      · have hk : k ≠ a := fun e => heq e.symm
        simpa [Memory.write, Memory.read, hlt, heq, hk] using ih hm.2.2.2

/-- Read after write, in a canonical memory (20_memory.md R59). -/
theorem Memory.read_write {m : Memory} (hm : m.wf = true) (a b : Nat) (v : Byte) :
    (m.write a v).read b = if b = a then v else m.read b := by
  by_cases h : b = a
  · subst h; simpa using Memory.read_write_self hm b v
  · simpa [h] using Memory.read_write_ne m v h

theorem Memory.write_wfFrom {lo a : Nat} {m : Memory} (v : Byte) (hm : Memory.wfFrom lo m = true) (hlo : lo ≤ a)
    (ha : a < memSize) : Memory.wfFrom lo (m.write a v) = true := by
  induction m generalizing lo with
  | nil =>
    by_cases hv : v = 0#8
    · simp [Memory.write, Memory.wfFrom, hv]
    · rw [Memory.write, if_neg hv, Memory.wfFrom_cons]
      exact ⟨hlo, ha, hv, rfl⟩
  | cons c m ih =>
    obtain ⟨k, w⟩ := c
    have hm' := Memory.wfFrom_cons.mp hm
    by_cases hlt : a < k
    · by_cases hv : v = 0#8
      · simpa [Memory.write, hlt, hv] using hm
      · rw [Memory.write, if_pos hlt, if_neg hv, Memory.wfFrom_cons, Memory.wfFrom_cons]
        exact ⟨hlo, ha, hv, hlt, hm'.2⟩
    · by_cases heq : a = k
      · subst heq
        by_cases hv : v = 0#8
        · simpa [Memory.write, hv] using Memory.wfFrom_mono (by omega) hm'.2.2.2
        · rw [Memory.write, if_neg hlt, if_pos rfl, if_neg hv, Memory.wfFrom_cons]
          exact ⟨hlo, ha, hv, hm'.2.2.2⟩
      · rw [Memory.write, if_neg hlt, if_neg heq, Memory.wfFrom_cons]
        exact ⟨hm'.1, hm'.2.1, hm'.2.2.1, ih hm'.2.2.2 (by omega)⟩

/-- A write to an address of the address space keeps the canonical form. -/
theorem Memory.write_wf {m : Memory} {a : Nat} (v : Byte) (hm : m.wf = true) (ha : a < memSize) :
    (m.write a v).wf = true := Memory.write_wfFrom v hm (Nat.zero_le a) ha

/-- Memory at reset is canonical. -/
theorem State.reset_mem_wf : State.reset.mem.wf = true := rfl

/-- Loading an image keeps the canonical form. -/
theorem placeImage_wf {image : List Byte} {a : Nat} {m : Memory} (hm : m.wf = true)
    (ha : a + image.length ≤ memSize) : (placeImage a image m).wf = true := by
  induction image generalizing a m with
  | nil => exact hm
  | cons b bs ih =>
    have hl : a + (bs.length + 1) ≤ memSize := by simpa using ha
    exact ih (Memory.write_wf b hm (by omega)) (by omega)

end Sys2Proof.Machine
end

