-- ==== Sys2Proof/Laws/Ops.lean ====
section
/-! SUPPORT. For each shared operation, what it can do, said once. -/

namespace Sys2Proof.Machine

/-! ## Sequencing and the end of a step -/

@[simp] theorem Res.bind_ok {α β : Type} (a : α) (f : α → Res β) : (Res.ok a).bind f = f a := rfl

@[simp] theorem Res.bind_raise {α β : Type} (c : FaultCause) (n : Int) (f : α → Res β) :
    (Res.raise c n).bind f = .raise c n := rfl

theorem Res.bind_eq_ok {α β : Type} {r : Res α} {f : α → Res β} {b : β} :
    r.bind f = .ok b ↔ ∃ a, r = .ok a ∧ f a = .ok b := by
  cases r <;> simp

theorem Res.bind_eq_raise {α β : Type} {r : Res α} {f : α → Res β} {c : FaultCause} {n : Int} :
    r.bind f = .raise c n ↔ r = .raise c n ∨ ∃ a, r = .ok a ∧ f a = .raise c n := by
  cases r <;> simp

@[simp] theorem State.finish_ok (s p : State) : s.finish (.ok p) = .next p := rfl

@[simp] theorem State.finish_raise (s : State) (c : FaultCause) (n : Int) :
    s.finish (.raise c n) = .next (s.raise c n) := rfl

/-- A finished step commits its pending copy or raises. -/
theorem State.finish_eq_next {s t : State} {r : Res State} (h : s.finish r = .next t) :
    r = .ok t ∨ ∃ c n, r = .raise c n ∧ t = s.raise c n := by
  cases r with
  | ok p => left; simpa using h
  | raise c n => right; exact ⟨c, n, rfl, by simpa using h.symm⟩

/-- What running a handler can do: the handler and the advance both succeed, or the instruction raises. -/
theorem runHandler_eq_next {op : Byte} {h : State → Res State} {s t : State} (hr : runHandler op h s = .next t) :
    (∃ p, h s = .ok p ∧ p.advance op = .ok t) ∨
      ∃ c n, t = s.raise c n ∧ (h s = .raise c n ∨ ∃ p, h s = .ok p ∧ p.advance op = .raise c n) := by
  rcases State.finish_eq_next hr with hok | ⟨c, n, hrs, ht⟩
  · exact .inl (Res.bind_eq_ok.mp hok)
  · exact .inr ⟨c, n, ht, Res.bind_eq_raise.mp hrs⟩

theorem runHandler_of_ok {op : Byte} {h : State → Res State} {s p t : State} (hp : h s = .ok p)
    (ht : p.advance op = .ok t) : runHandler op h s = .next t := by
  simp [runHandler, hp, ht]

theorem runHandler_of_raise {op : Byte} {h : State → Res State} {s : State} {c : FaultCause} {n : Int}
    (hp : h s = .raise c n) : runHandler op h s = .next (s.raise c n) := by
  simp [runHandler, hp]

theorem runHandler_of_advance_raise {op : Byte} {h : State → Res State} {s p : State} {c : FaultCause} {n : Int}
    (hp : h s = .ok p) (ha : p.advance op = .raise c n) : runHandler op h s = .next (s.raise c n) := by
  simp [runHandler, hp, ha]

/-! ## Integers and bytes -/

theorem byteInt_nonneg (v : Byte) : 0 ≤ byteInt v := Int.natCast_nonneg _

theorem byteInt_le (v : Byte) : byteInt v ≤ 255 := by
  have := v.isLt; unfold byteInt; omega

@[simp] theorem byteInt_toNat (v : Byte) : (byteInt v).toNat = v.toNat := Int.toNat_natCast _

@[simp] theorem narrow_byteInt (v : Byte) : narrow (byteInt v) = v := by
  apply BitVec.eq_of_toInt_eq
  simp [narrow, byteInt, BitVec.toInt_eq_toNat_bmod]

/-- Narrowing is reduction modulo 256. -/
theorem narrow_toNat (t : Int) : ((narrow t).toNat : Int) = t % 256 := by
  have h : 0 ≤ t % 256 := Int.emod_nonneg t (by decide)
  simp only [narrow, BitVec.toNat_ofInt]
  omega

theorem narrow_eq_iff {t : Int} {v : Byte} : narrow t = v ↔ t % 256 = byteInt v := by
  rw [← BitVec.toNat_inj, ← Int.natCast_inj, narrow_toNat]; rfl

/-- Taking a value modulo 256 or not narrows to the same byte. -/
@[simp] theorem narrow_wrapped (cfg : Config) (t : Int) : narrow (wrapped cfg t) = narrow t := by
  cases h : cfg.oobPolicy
  · simp [wrapped, h]
  · rw [narrow_eq_iff, byteInt, narrow_toNat]; simp [wrapped, h]

theorem wrapped_fault {cfg : Config} (h : cfg.oobPolicy = .fault) (t : Int) : wrapped cfg t = t := by
  simp [wrapped, h]

theorem wrapped_wrap {cfg : Config} (h : cfg.oobPolicy = .wrap) (t : Int) : wrapped cfg t = t % 256 := by
  simp [wrapped, h]

/-- A computed value that is in range, or is wrapped, is the byte it narrows to. -/
theorem wrapped_eq_byteInt {cfg : Config} {t : Int} (h : cfg.oobPolicy = .wrap ∨ (0 ≤ t ∧ t ≤ 255)) :
    wrapped cfg t = byteInt (narrow t) := by
  rw [byteInt, narrow_toNat]
  cases hc : cfg.oobPolicy with
  | wrap => exact wrapped_wrap hc t
  | fault =>
    have h' : 0 ≤ t ∧ t ≤ 255 := by simpa [hc] using h
    rw [wrapped_fault hc]; omega

theorem narrow_add_nat (v : Byte) (n : Nat) : narrow (byteInt v + n) = v + BitVec.ofNat 8 n := by
  rw [narrow_eq_iff, byteInt, byteInt, BitVec.toNat_add, BitVec.toNat_ofNat]; omega

theorem narrow_sub_one (v : Byte) : narrow (byteInt v - 1) = v - 1#8 := by
  rw [narrow_eq_iff, byteInt, byteInt, BitVec.toNat_sub]; have := v.isLt; simp; omega

/-! ## Memory access -/

@[simp] theorem State.memRead_byteInt (s : State) (a : Byte) :
    s.memRead (byteInt a) = .ok (s.mem.read a.toNat) := by
  have h1 := byteInt_nonneg a
  have h2 := byteInt_le a
  simp [State.memRead, not_lt.mpr h1, not_lt.mpr h2]

@[simp] theorem State.memWrite_byteInt (s : State) (a : Byte) (v : Byte) :
    s.memWrite (byteInt a) v = .ok { s with mem := s.mem.write a.toNat v } := by
  have h1 := byteInt_nonneg a
  have h2 := byteInt_le a
  simp [State.memWrite, not_lt.mpr h1, not_lt.mpr h2]

@[simp] theorem State.loadTop_eq (s : State) : s.loadTop = .ok (s.mem.read (s.reg spIdx).toNat) :=
  State.memRead_byteInt s _

@[simp] theorem State.storeTop_eq (s : State) (v : Byte) :
    s.storeTop v = .ok { s with mem := s.mem.write (s.reg spIdx).toNat v } := State.memWrite_byteInt s _ v

/-! ## Operands -/

theorem checkReg_ok {r : Byte} (h : r.toNat < 8) : checkReg r = .ok ⟨r.toNat, h⟩ := by simp [checkReg, h]

theorem checkReg_raise {r : Byte} (h : 8 ≤ r.toNat) : checkReg r = .raise .regOutOfBounds (byteInt r) := by
  simp [checkReg, not_lt.mpr h]

/-- CheckReg passes with the index the byte says, or raises. -/
theorem checkReg_cases (r : Byte) :
    (∃ h : r.toNat < 8, checkReg r = .ok ⟨r.toNat, h⟩) ∨
      (8 ≤ r.toNat ∧ checkReg r = .raise .regOutOfBounds (byteInt r)) := by
  by_cases h : r.toNat < 8
  · exact .inl ⟨h, checkReg_ok h⟩
  · exact .inr ⟨by omega, checkReg_raise (by omega)⟩

theorem checkRegs_ok {a b : Byte} (ha : a.toNat < 8) (hb : b.toNat < 8) :
    checkRegs a b = .ok (⟨a.toNat, ha⟩, ⟨b.toNat, hb⟩) := by simp [checkRegs, checkReg_ok ha, checkReg_ok hb]

/-- Operand A is checked before operand B. -/
theorem checkRegs_cases (a b : Byte) :
    (∃ (ha : a.toNat < 8) (hb : b.toNat < 8), checkRegs a b = .ok (⟨a.toNat, ha⟩, ⟨b.toNat, hb⟩)) ∨
      (8 ≤ a.toNat ∧ checkRegs a b = .raise .regOutOfBounds (byteInt a)) ∨
      (a.toNat < 8 ∧ 8 ≤ b.toNat ∧ checkRegs a b = .raise .regOutOfBounds (byteInt b)) := by
  rcases checkReg_cases a with ⟨ha, hca⟩ | ⟨ha, hca⟩
  · rcases checkReg_cases b with ⟨hb, hcb⟩ | ⟨hb, hcb⟩
    · exact .inl ⟨ha, hb, checkRegs_ok ha hb⟩
    · exact .inr (.inr ⟨ha, hb, by simp [checkRegs, hca, hcb]⟩)
  · exact .inr (.inl ⟨ha, by simp [checkRegs, hca]⟩)

/-! ## Advance -/

theorem State.advance_setsPc {op : Byte} (h : setsPcBit op = true) (p : State) : p.advance op = .ok p := by
  simp [State.advance, h]

/-- An advance that stays in range, or wraps, adds the length. -/
theorem State.advance_inRange {op : Byte} (h : setsPcBit op = false) {p : State}
    (hr : p.InRange (operandCount op + 1)) :
    p.advance op = .ok (p.setPc (p.pc + BitVec.ofNat 8 (operandCount op + 1))) := by
  have ht : wrapped p.cfg (byteInt p.pc + operandCount op + 1) =
      byteInt (narrow (byteInt p.pc + ((operandCount op + 1 : Nat) : Int))) := by
    rw [← wrapped_eq_byteInt]
    · congr 1
    · rcases hr with hw | hle
      · exact .inl hw
      · right; unfold byteInt; omega
  rw [State.advance, h, if_neg (by decide)]
  simp only [ht, narrow_byteInt, narrow_add_nat]
  rw [if_neg (not_lt.mpr (byteInt_le _))]

/-- An advance past 255 under FAULT raises (40_cycle.md R110). -/
theorem State.advance_raise {op : Byte} (h : setsPcBit op = false) {p : State} (hf : p.cfg.oobPolicy = .fault)
    (hr : 255 < p.pc.toNat + (operandCount op + 1)) :
    p.advance op = .raise .memOutOfBounds (byteInt p.pc + operandCount op + 1) := by
  rw [State.advance, h, if_neg (by decide)]
  simp only [wrapped_fault hf]
  rw [if_pos (by unfold byteInt; omega)]

/-- An advance only writes pc, or raises MemOutOfBounds, which only FAULT does. -/
theorem State.advance_cases (op : Byte) (p : State) :
    (setsPcBit op = true ∧ p.advance op = .ok p) ∨
      (setsPcBit op = false ∧ p.InRange (operandCount op + 1) ∧
        p.advance op = .ok (p.setPc (p.pc + BitVec.ofNat 8 (operandCount op + 1)))) ∨
      (setsPcBit op = false ∧ p.cfg.oobPolicy = .fault ∧ 255 < p.pc.toNat + (operandCount op + 1) ∧
        p.advance op = .raise .memOutOfBounds (byteInt p.pc + operandCount op + 1)) := by
  cases hs : setsPcBit op with
  | true => exact .inl ⟨rfl, State.advance_setsPc hs p⟩
  | false =>
    by_cases hr : p.InRange (operandCount op + 1)
    · exact .inr (.inl ⟨rfl, hr, State.advance_inRange hs hr⟩)
    · have hf : p.cfg.oobPolicy = .fault := by
        cases hc : p.cfg.oobPolicy
        · rfl
        · exact absurd (.inl hc) hr
      have hlt : 255 < p.pc.toNat + (operandCount op + 1) := by
        by_contra hle; exact hr (.inr (by omega))
      exact .inr (.inr ⟨rfl, hf, hlt, State.advance_raise hs hf hlt⟩)

/-! ## The stack -/

theorem State.pushSlot_eq {s : State} (h : s.CanPush) : s.pushSlot = byteInt (s.reg spIdx - 1#8) := by
  rw [State.pushSlot, wrapped_eq_byteInt, narrow_sub_one]
  rcases h with hw | hle
  · exact .inl hw
  · right; have := (s.reg spIdx).isLt; unfold byteInt; omega

theorem State.decSp_ok {s : State} (h : s.CanPush) : s.decSp = .ok (s.setReg spIdx (s.reg spIdx - 1#8)) := by
  have hn := byteInt_nonneg (s.reg spIdx - 1#8)
  simp [State.decSp, State.pushSlot_eq h, not_lt.mpr hn]

/-- SP = 0 under FAULT: StackOutOfBounds(-1). -/
theorem State.decSp_raise {s : State} (h : ¬ s.CanPush) : s.decSp = .raise .stackOutOfBounds (-1) := by
  have hc : s.cfg.oobPolicy = .fault := by
    cases hc : s.cfg.oobPolicy
    · rfl
    · exact absurd (.inl hc) h
  have hz : (s.reg spIdx).toNat = 0 := by by_contra hz; exact h (.inr (by omega))
  simp [State.decSp, State.pushSlot, wrapped_fault hc, byteInt, hz]

theorem State.incSp_ok {s : State} (h : s.CanIncrement (s.reg spIdx)) :
    s.incSp = .ok (s.setReg spIdx (s.reg spIdx + 1#8)) := by
  have he : s.popSp = byteInt (s.reg spIdx + 1#8) := by
    have := narrow_add_nat (s.reg spIdx) 1
    rw [State.popSp, wrapped_eq_byteInt]
    · exact congrArg byteInt this
    · rcases h with hw | hle
      · exact .inl hw
      · right; unfold byteInt; omega
  have hl := byteInt_le (s.reg spIdx + 1#8)
  simp [State.incSp, he, not_lt.mpr hl]

/-- SP = 255 under FAULT: StackOutOfBounds(256). -/
theorem State.incSp_raise {s : State} (h : ¬ s.CanIncrement (s.reg spIdx)) :
    s.incSp = .raise .stackOutOfBounds 256 := by
  have hc : s.cfg.oobPolicy = .fault := by
    cases hc : s.cfg.oobPolicy
    · rfl
    · exact absurd (.inl hc) h
  have hz : (s.reg spIdx).toNat = 255 := by
    by_contra hz; exact h (.inr (by have := (s.reg spIdx).isLt; omega))
  simp [State.incSp, State.popSp, wrapped_fault hc, byteInt, hz]

@[simp] theorem State.pcPlus2_eq (s : State) : s.pcPlus2 = s.pc + 2#8 := by
  rw [State.pcPlus2, narrow_wrapped]; exact narrow_add_nat s.pc 2

/-! ## Fetch, Classify, commit -/

/-- A fetch in range latches the three bytes at pc (40_cycle.md R101). -/
theorem State.fetch_ok {s : State} (h : s.InRange 2) : s.fetch = .ok s.latched := by
  have h1 : wrapped s.cfg (byteInt s.pc + 1) = byteInt (s.pc + 1#8) := by
    rw [wrapped_eq_byteInt]
    · exact congrArg byteInt (narrow_add_nat s.pc 1)
    · rcases h with hw | hle
      · exact .inl hw
      · right; unfold byteInt; omega
  have h2 : wrapped s.cfg (byteInt s.pc + 2) = byteInt (s.pc + 2#8) := by
    rw [wrapped_eq_byteInt]
    · exact congrArg byteInt (narrow_add_nat s.pc 2)
    · rcases h with hw | hle
      · exact .inl hw
      · right; unfold byteInt; omega
  simp only [State.fetch, h1, h2]
  rw [if_neg (not_lt.mpr (byteInt_le _)), if_neg (not_lt.mpr (byteInt_le _))]
  simp [State.latched, State.byteAt]

/-- A fetch that would leave memory raises MemOutOfBounds(256) (40_cycle.md R102). -/
theorem State.fetch_raise {s : State} (h : ¬ s.InRange 2) : s.fetch = .raise .memOutOfBounds 256 := by
  have hc : s.cfg.oobPolicy = .fault := by
    cases hc : s.cfg.oobPolicy
    · rfl
    · exact absurd (.inl hc) h
  have hlt : 254 ≤ s.pc.toNat := by by_contra hlt; exact h (.inr (by omega))
  have hb := s.pc.isLt
  simp only [State.fetch, wrapped_fault hc, byteInt]
  by_cases h5 : s.pc.toNat = 255
  · simp [h5]
  · have h4 : s.pc.toNat = 254 := by omega
    simp [h4]

theorem State.classifyLatched_latched (s : State) :
    s.latched.classifyLatched =
      match s.instrAtPc with
      | .instr i => .ok i
      | .reject why => raiseReject why := rfl

/-- What a step of a RUNNING core is: a fetch out of range, a byte that is no instruction, or the instruction at
pc run on the latched state (40_cycle.md R100). -/
theorem step_running {s : State} (h : s.status = .running) :
    step s =
      if s.InRange 2 then
        match s.instrAtPc with
        | .instr i => s.commit (exec i s.latched)
        | .reject (.decodeFault op) => .next (s.raise .decodeFault (byteInt op))
        | .reject (.unmappedAluOp op) => .next (s.raise .unmappedAluOp (byteInt op))
      else .next (s.raise .memOutOfBounds 256) := by
  by_cases hr : s.InRange 2
  · rw [if_pos hr]
    simp only [step, h, State.fetchDecode, State.fetch_ok hr, Res.bind_ok, State.classifyLatched_latched]
    cases s.instrAtPc with
    | instr i => rfl
    | reject why => cases why <;> rfl
  · rw [if_neg hr]
    simp [step, h, State.fetchDecode, State.fetch_raise hr]

theorem State.commit_of_not_faulted (s : State) {p : State} (h : p.status ≠ .faulted) :
    s.commit (.next p) = .next p := by simp [State.commit, h]

/-- A raise inside the instruction commits nothing but STATUS and FAULT (00_scope.md R8). -/
@[simp] theorem State.commit_latched_raise (s : State) (c : FaultCause) (n : Int) :
    s.commit (.next (s.latched.raise c n)) = .next (s.raise c n) := rfl

end Sys2Proof.Machine
end

