-- ==== Sys2Proof/Laws/Handlers.lean ====
section
/-! SUPPORT. What each instruction's handler can do: each raise with its condition, and the pending copy it leaves. -/

namespace Sys2Proof.Machine

theorem ldiHandler_cases (r imm : Byte) (s : State) :
    (8 ≤ r.toNat ∧ ldiHandler r imm s = .raise .regOutOfBounds (byteInt r)) ∨
      ∃ h : r.toNat < 8, ldiHandler r imm s = .ok (s.setReg ⟨r.toNat, h⟩ imm) := by
  rcases checkReg_cases r with ⟨h, hc⟩ | ⟨h, hc⟩
  · exact .inr ⟨h, by simp [ldiHandler, hc]⟩
  · exact .inl ⟨h, by simp [ldiHandler, hc]⟩

theorem prnHandler_cases (r : Byte) (s : State) :
    (8 ≤ r.toNat ∧ prnHandler r s = .raise .regOutOfBounds (byteInt r)) ∨
      ∃ h : r.toNat < 8, prnHandler r s = .ok (s.emit (s.reg ⟨r.toNat, h⟩)) := by
  rcases checkReg_cases r with ⟨h, hc⟩ | ⟨h, hc⟩
  · exact .inr ⟨h, by simp [prnHandler, hc]⟩
  · exact .inl ⟨h, by simp [prnHandler, hc]⟩

/-- The byte PUSH stores: register 7 is read after the SP write (41_non_alu.md R133). -/
theorem State.reg_after_decSp (s : State) {r : Byte} (h : r.toNat < 8) (v : Byte) :
    (s.setReg spIdx v).reg ⟨r.toNat, h⟩ = if r.toNat = 7 then v else s.reg ⟨r.toNat, h⟩ := by
  by_cases h7 : r.toNat = 7 <;> simp [spIdx, h7, Fin.ext_iff]

theorem pushHandler_cases (r : Byte) (s : State) :
    (8 ≤ r.toNat ∧ pushHandler r s = .raise .regOutOfBounds (byteInt r)) ∨
      (r.toNat < 8 ∧ ¬ s.CanPush ∧ pushHandler r s = .raise .stackOutOfBounds (-1)) ∨
      ∃ h : r.toNat < 8, s.CanPush ∧
        pushHandler r s = .ok { s.setReg spIdx (s.reg spIdx - 1#8) with
          mem := s.mem.write (s.reg spIdx - 1#8).toNat
            (if r.toNat = 7 then s.reg spIdx - 1#8 else s.reg ⟨r.toNat, h⟩) } := by
  rcases checkReg_cases r with ⟨h, hc⟩ | ⟨h, hc⟩
  · by_cases hp : s.CanPush
    · refine .inr (.inr ⟨h, hp, ?_⟩)
      simp only [pushHandler, hc, Res.bind_ok, State.decSp_ok hp, State.storeTop_eq, State.reg_after_decSp]
      simp
    · exact .inr (.inl ⟨h, hp, by simp [pushHandler, hc, State.decSp_raise hp]⟩)
  · exact .inl ⟨h, by simp [pushHandler, hc]⟩

theorem popHandler_cases (r : Byte) (s : State) :
    (8 ≤ r.toNat ∧ popHandler r s = .raise .regOutOfBounds (byteInt r)) ∨
      ∃ (h : r.toNat < 8) (v w : Byte), v = s.mem.read (s.reg spIdx).toNat ∧
        w = (if r.toNat = 7 then v else s.reg spIdx) ∧
        (¬ s.CanIncrement w ∧ popHandler r s = .raise .stackOutOfBounds 256 ∨
          s.CanIncrement w ∧
            popHandler r s = .ok ((s.setReg ⟨r.toNat, h⟩ v).setReg spIdx (w + 1#8))) := by
  rcases checkReg_cases r with ⟨h, hc⟩ | ⟨h, hc⟩
  · refine .inr ⟨h, _, _, rfl, rfl, ?_⟩
    have hw : (s.setReg ⟨r.toNat, h⟩ (s.mem.read (s.reg spIdx).toNat)).reg spIdx =
        if r.toNat = 7 then s.mem.read (s.reg spIdx).toNat else s.reg spIdx := by
      by_cases h7 : r.toNat = 7
      · simp [spIdx, h7]
      · have h7' : ¬ 7 = r.toNat := fun e => h7 e.symm
        simp [spIdx, h7, Fin.ext_iff, h7']
    by_cases hi : s.CanIncrement (if r.toNat = 7 then s.mem.read (s.reg spIdx).toNat else s.reg spIdx)
    · right
      refine ⟨hi, ?_⟩
      rw [← hw] at hi ⊢
      simp only [popHandler, hc, Res.bind_ok, State.loadTop_eq]
      exact State.incSp_ok (s := s.setReg ⟨r.toNat, h⟩ _) hi
    · left
      refine ⟨hi, ?_⟩
      rw [← hw] at hi
      simp only [popHandler, hc, Res.bind_ok, State.loadTop_eq]
      exact State.incSp_raise (s := s.setReg ⟨r.toNat, h⟩ _) hi
  · exact .inl ⟨h, by simp [popHandler, hc]⟩

theorem callHandler_cases (r : Byte) (s : State) :
    (8 ≤ r.toNat ∧ callHandler r s = .raise .regOutOfBounds (byteInt r)) ∨
      (r.toNat < 8 ∧ ¬ s.CanPush ∧ callHandler r s = .raise .stackOutOfBounds (-1)) ∨
      ∃ h : r.toNat < 8, s.CanPush ∧
        callHandler r s = .ok { s.setReg spIdx (s.reg spIdx - 1#8) with
          mem := s.mem.write (s.reg spIdx - 1#8).toNat (s.pc + 2#8)
          pc := if r.toNat = 7 then s.reg spIdx - 1#8 else s.reg ⟨r.toNat, h⟩ } := by
  rcases checkReg_cases r with ⟨h, hc⟩ | ⟨h, hc⟩
  · by_cases hp : s.CanPush
    · refine .inr (.inr ⟨h, hp, ?_⟩)
      rw [← State.reg_after_decSp s h]
      simp [callHandler, hc, State.decSp_ok hp, State.setPc, State.reg, State.setReg]
    · exact .inr (.inl ⟨h, hp, by simp [callHandler, hc, State.decSp_raise hp]⟩)
  · exact .inl ⟨h, by simp [callHandler, hc]⟩

theorem retHandler_cases (s : State) :
    (¬ s.CanIncrement (s.reg spIdx) ∧ retHandler s = .raise .stackOutOfBounds 256) ∨
      (s.CanIncrement (s.reg spIdx) ∧
        retHandler s = .ok ((s.setReg spIdx (s.reg spIdx + 1#8)).setPc (s.mem.read (s.reg spIdx).toNat))) := by
  by_cases hi : s.CanIncrement (s.reg spIdx)
  · exact .inr ⟨hi, by simp [retHandler, State.incSp_ok hi]⟩
  · exact .inl ⟨hi, by simp [retHandler, State.incSp_raise hi]⟩

theorem jmpHandler_cases (r : Byte) (s : State) :
    (8 ≤ r.toNat ∧ jmpHandler r s = .raise .regOutOfBounds (byteInt r)) ∨
      ∃ h : r.toNat < 8, jmpHandler r s = .ok (s.setPc (s.reg ⟨r.toNat, h⟩)) := by
  rcases checkReg_cases r with ⟨h, hc⟩ | ⟨h, hc⟩
  · exact .inr ⟨h, by simp [jmpHandler, hc]⟩
  · exact .inl ⟨h, by simp [jmpHandler, hc]⟩

theorem branchHandler_cases (taken : Bool) (r : Byte) (s : State) :
    (8 ≤ r.toNat ∧ branchHandler taken r s = .raise .regOutOfBounds (byteInt r)) ∨
      ∃ h : r.toNat < 8,
        branchHandler taken r s = .ok (s.setPc (if taken then s.reg ⟨r.toNat, h⟩ else s.pc + 2#8)) := by
  rcases checkReg_cases r with ⟨h, hc⟩ | ⟨h, hc⟩
  · exact .inr ⟨h, by simp [branchHandler, hc]⟩
  · exact .inl ⟨h, by simp [branchHandler, hc]⟩

theorem aluHandler_cases (f : Byte → Byte → Byte) (a b : Byte) (s : State) :
    (8 ≤ a.toNat ∧ aluHandler f a b s = .raise .regOutOfBounds (byteInt a)) ∨
      (a.toNat < 8 ∧ 8 ≤ b.toNat ∧ aluHandler f a b s = .raise .regOutOfBounds (byteInt b)) ∨
      ∃ (ha : a.toNat < 8) (hb : b.toNat < 8),
        aluHandler f a b s = .ok (s.setReg ⟨a.toNat, ha⟩ (f (s.reg ⟨a.toNat, ha⟩) (s.reg ⟨b.toNat, hb⟩))) := by
  rcases checkRegs_cases a b with ⟨ha, hb, hc⟩ | ⟨ha, hc⟩ | ⟨ha, hb, hc⟩
  · exact .inr (.inr ⟨ha, hb, by simp [aluHandler, hc]⟩)
  · exact .inl ⟨ha, by simp [aluHandler, hc]⟩
  · exact .inr (.inl ⟨ha, hb, by simp [aluHandler, hc]⟩)

theorem cmpHandler_cases (s : State) :
    (8 ≤ s.opa.toNat ∧ cmpHandler s = .raise .regOutOfBounds (byteInt s.opa)) ∨
      (s.opa.toNat < 8 ∧ 8 ≤ s.opb.toNat ∧ cmpHandler s = .raise .regOutOfBounds (byteInt s.opb)) ∨
      ∃ (ha : s.opa.toNat < 8) (hb : s.opb.toNat < 8),
        cmpHandler s = .ok (s.setFl (cmpFlags (s.reg ⟨s.opa.toNat, ha⟩) (s.reg ⟨s.opb.toNat, hb⟩))) := by
  rcases checkRegs_cases s.opa s.opb with ⟨ha, hb, hc⟩ | ⟨ha, hc⟩ | ⟨ha, hb, hc⟩
  · exact .inr (.inr ⟨ha, hb, by simp [cmpHandler, hc]⟩)
  · exact .inl ⟨ha, by simp [cmpHandler, hc]⟩
  · exact .inr (.inl ⟨ha, hb, by simp [cmpHandler, hc]⟩)

/-! ## The results -/

theorem aluAdd_eq (u w : Byte) : aluAdd u w = BitVec.ofNat 8 ((u.toNat + w.toNat) % 256) := by
  rw [aluAdd, narrow_eq_iff]; simp [byteInt]

theorem aluSub_eq (u w : Byte) : aluSub u w = BitVec.ofNat 8 ((u.toNat + (256 - w.toNat)) % 256) := by
  rw [aluSub, narrow_eq_iff]; have := w.isLt; simp only [byteInt, BitVec.toNat_ofNat]; omega

theorem aluMul_eq (u w : Byte) : aluMul u w = BitVec.ofNat 8 (u.toNat * w.toNat % 256) := by
  rw [aluMul, narrow_eq_iff]; simp [byteInt]

theorem aluShl_eq (u k : Byte) :
    aluShl u k = if 8 ≤ k.toNat then 0#8 else BitVec.ofNat 8 (u.toNat * 2 ^ k.toNat % 256) := by
  by_cases hk : 8 ≤ k.toNat
  · simp [aluShl, hk]
  · rw [aluShl, if_neg hk, if_neg hk, narrow_eq_iff]
    simp [byteInt]

theorem aluShr_eq (u k : Byte) :
    aluShr u k = if 8 ≤ k.toNat then 0#8 else BitVec.ofNat 8 (u.toNat / 2 ^ k.toNat) := by
  by_cases hk : 8 ≤ k.toNat
  · simp [aluShr, hk]
  · rw [aluShr, if_neg hk, if_neg hk, narrow_eq_iff]
    simp [byteInt]

/-- fl after a comparison is exactly one of E, G and L (42_alu.md R164). -/
theorem cmpFlags_cases (u w : Byte) : cmpFlags u w = 1#8 ∨ cmpFlags u w = 2#8 ∨ cmpFlags u w = 4#8 := by
  unfold cmpFlags; split
  · exact .inl rfl
  · split
    · exact .inr (.inl rfl)
    · exact .inr (.inr rfl)

end Sys2Proof.Machine
end

