-- ==== Sys2Proof/Laws/Exec.lean ====
section
/-! SUPPORT. What executing an instruction can do, said once: `exec_cases`. -/

namespace Sys2Proof.Machine

/-- The conditions under which an instruction raises cause `c` with info `n` (60_exceptions.md R192). -/
def RaisedBy (i : Instr) (s : State) (c : FaultCause) (n : Int) : Prop :=
  (c = .regOutOfBounds ∧ 1 ≤ operandCount i.opcode ∧ 8 ≤ n ∧ n ≤ 255) ∨
    (c = .stackOutOfBounds ∧ s.cfg.oobPolicy = .fault ∧
      ((i.opcode = Opcode.push ∨ i.opcode = Opcode.call) ∧ n = -1 ∨
        (i.opcode = Opcode.pop ∨ i.opcode = Opcode.ret) ∧ n = 256)) ∨
    (c = .memOutOfBounds ∧ s.cfg.oobPolicy = .fault ∧ setsPcBit i.opcode = false ∧
      n = byteInt s.pc + operandCount i.opcode + 1 ∧ 255 < n) ∨
    (c = .unmappedAluOp ∧ s.cfg.aluLogicExt = false ∧ i.needsLogicExt = true ∧ n = byteInt i.opcode)

/-- What an ALU operation that writes x[a] leaves. -/
def AluEffect (f : Byte → Byte → Byte) (a b : Byte) (s t : State) : Prop :=
  ∃ (ha : a.toNat < 8) (hb : b.toNat < 8), s.InRange 3 ∧
    t = (s.setReg ⟨a.toNat, ha⟩ (f (s.reg ⟨a.toNat, ha⟩) (s.reg ⟨b.toNat, hb⟩))).setPc (s.pc + 3#8)

/-- What an instruction leaves when it raises nothing. -/
def Effect (i : Instr) (s t : State) : Prop :=
  match i with
  | .hlt => t = s.halt
  | .ldi r imm => ∃ h : r.toNat < 8, s.InRange 3 ∧ t = (s.setReg ⟨r.toNat, h⟩ imm).setPc (s.pc + 3#8)
  | .prn r => ∃ h : r.toNat < 8, s.InRange 2 ∧ t = (s.emit (s.reg ⟨r.toNat, h⟩)).setPc (s.pc + 2#8)
  | .push r => ∃ h : r.toNat < 8, s.CanPush ∧ s.InRange 2 ∧
      t = { s.setReg spIdx (s.reg spIdx - 1#8) with
        mem := s.mem.write (s.reg spIdx - 1#8).toNat
          (if r.toNat = 7 then s.reg spIdx - 1#8 else s.reg ⟨r.toNat, h⟩)
        pc := s.pc + 2#8 }
  | .pop r => ∃ (h : r.toNat < 8) (v w : Byte), v = s.mem.read (s.reg spIdx).toNat ∧
      w = (if r.toNat = 7 then v else s.reg spIdx) ∧ s.CanIncrement w ∧ s.InRange 2 ∧
      t = ((s.setReg ⟨r.toNat, h⟩ v).setReg spIdx (w + 1#8)).setPc (s.pc + 2#8)
  | .call r => ∃ h : r.toNat < 8, s.CanPush ∧
      t = { s.setReg spIdx (s.reg spIdx - 1#8) with
        mem := s.mem.write (s.reg spIdx - 1#8).toNat (s.pc + 2#8)
        pc := if r.toNat = 7 then s.reg spIdx - 1#8 else s.reg ⟨r.toNat, h⟩ }
  | .ret => s.CanIncrement (s.reg spIdx) ∧
      t = (s.setReg spIdx (s.reg spIdx + 1#8)).setPc (s.mem.read (s.reg spIdx).toNat)
  | .jmp r => ∃ h : r.toNat < 8, t = s.setPc (s.reg ⟨r.toNat, h⟩)
  | .jeq r => ∃ h : r.toNat < 8, t = s.setPc (if s.flagE then s.reg ⟨r.toNat, h⟩ else s.pc + 2#8)
  | .jne r => ∃ h : r.toNat < 8, t = s.setPc (if !s.flagE then s.reg ⟨r.toNat, h⟩ else s.pc + 2#8)
  | .add a b => AluEffect aluAdd a b s t
  | .sub a b => AluEffect aluSub a b s t
  | .mul a b => AluEffect aluMul a b s t
  | .cmp _ _ => ∃ (ha : s.opa.toNat < 8) (hb : s.opb.toNat < 8), s.InRange 3 ∧
      t = (s.setFl (cmpFlags (s.reg ⟨s.opa.toNat, ha⟩) (s.reg ⟨s.opb.toNat, hb⟩))).setPc (s.pc + 3#8)
  | .and a b => s.cfg.aluLogicExt = true ∧ AluEffect (fun u w => u &&& w) a b s t
  | .or a b => s.cfg.aluLogicExt = true ∧ AluEffect (fun u w => u ||| w) a b s t
  | .xor a b => s.cfg.aluLogicExt = true ∧ AluEffect (fun u w => u ^^^ w) a b s t
  | .shl a b => s.cfg.aluLogicExt = true ∧ AluEffect aluShl a b s t
  | .shr a b => s.cfg.aluLogicExt = true ∧ AluEffect aluShr a b s t

/-! ## The raises -/

theorem raisedBy_reg {i : Instr} {s : State} {r : Byte} (hi : 1 ≤ operandCount i.opcode) (hr : 8 ≤ r.toNat) :
    RaisedBy i s .regOutOfBounds (byteInt r) :=
  .inl ⟨rfl, hi, by unfold byteInt; omega, byteInt_le r⟩

theorem fault_of_not_canPush {s : State} (h : ¬ s.CanPush) : s.cfg.oobPolicy = .fault := by
  cases hc : s.cfg.oobPolicy
  · rfl
  · exact absurd (.inl hc) h

theorem fault_of_not_canIncrement {s : State} {v : Byte} (h : ¬ s.CanIncrement v) : s.cfg.oobPolicy = .fault := by
  cases hc : s.cfg.oobPolicy
  · rfl
  · exact absurd (.inl hc) h

/-! ## Running a handler that succeeds or raises -/

/-- The handler raised: so does the instruction. -/
theorem runHandler_raise_cases {i : Instr} {op : Byte} {h : State → Res State} {s t : State} {c : FaultCause} {n : Int}
    (hr : runHandler op h s = .next t) (hp : h s = .raise c n) (hc : RaisedBy i s c n) :
    ∃ c n, RaisedBy i s c n ∧ t = s.raise c n := by
  rw [runHandler_of_raise hp] at hr
  exact ⟨c, n, hc, by simpa using hr.symm⟩

/-- The handler of an instruction with sets-PC bit 1 succeeded: so does the instruction. -/
theorem runHandler_setsPc {op : Byte} {h : State → Res State} {s p t : State} (hs : setsPcBit op = true)
    (hr : runHandler op h s = .next t) (hp : h s = .ok p) : t = p := by
  rw [runHandler_of_ok hp (State.advance_setsPc hs p)] at hr
  simpa using hr.symm

/-- The handler of an instruction of `k` bytes with sets-PC bit 0 succeeded: pc advances by `k`, or the
advance raises. -/
theorem runHandler_advance_cases {i : Instr} {h : State → Res State} {s p t : State} {k : Nat}
    (hs : setsPcBit i.opcode = false) (hk : operandCount i.opcode + 1 = k)
    (hr : runHandler i.opcode h s = .next t) (hp : h s = .ok p) (hpc : p.pc = s.pc) (hcfg : p.cfg = s.cfg) :
    (∃ c n, RaisedBy i s c n ∧ t = s.raise c n) ∨ (s.InRange k ∧ t = p.setPc (s.pc + BitVec.ofNat 8 k)) := by
  rcases State.advance_cases i.opcode p with ⟨h', -⟩ | ⟨-, hin, ha⟩ | ⟨-, hf, hlt, ha⟩
  · simp [hs] at h'
  · rw [runHandler_of_ok hp ha] at hr
    right
    rw [State.InRange, hpc, hcfg, hk] at hin
    rw [hk, hpc] at hr
    exact ⟨hin, by simpa using hr.symm⟩
  · rw [runHandler_of_advance_raise hp ha] at hr
    rw [hpc] at hr hlt
    rw [hcfg] at hf
    exact .inl ⟨_, _, .inr (.inr (.inl ⟨rfl, hf, hs, rfl, by unfold byteInt; omega⟩)), by simpa using hr.symm⟩

theorem aluHandler_run_cases {i : Instr} {f : Byte → Byte → Byte} {a b : Byte} {s t : State}
    (hs : setsPcBit i.opcode = false) (hk : operandCount i.opcode = 2)
    (h : runHandler i.opcode (aluHandler f a b) s = .next t) :
    (∃ c n, RaisedBy i s c n ∧ t = s.raise c n) ∨ AluEffect f a b s t := by
  rcases aluHandler_cases f a b s with ⟨ha, hp⟩ | ⟨ha, hb, hp⟩ | ⟨ha, hb, hp⟩
  · exact .inl (runHandler_raise_cases h hp (raisedBy_reg (by omega) ha))
  · exact .inl (runHandler_raise_cases h hp (raisedBy_reg (by omega) hb))
  · exact (runHandler_advance_cases (k := 3) hs (by omega) h hp rfl rfl).imp id fun ⟨hin, ht⟩ => ⟨ha, hb, hin, ht⟩

theorem runExt_cases {i : Instr} {f : Byte → Byte → Byte} {a b : Byte} {s t : State}
    (hs : setsPcBit i.opcode = false) (hk : operandCount i.opcode = 2) (hx : i.needsLogicExt = true)
    (h : runExt i.opcode f a b s = .next t) :
    (∃ c n, RaisedBy i s c n ∧ t = s.raise c n) ∨ s.cfg.aluLogicExt = true ∧ AluEffect f a b s t := by
  unfold runExt at h
  split at h
  · exact (aluHandler_run_cases hs hk h).imp id fun he => ⟨‹_›, he⟩
  · exact .inl ⟨_, _, .inr (.inr (.inr ⟨rfl, by simpa using ‹¬ s.cfg.aluLogicExt = true›, hx, rfl⟩)),
      by simpa using h.symm⟩

/-! ## The inversion lemma -/

/-- What executing an instruction can do: raise, under the conditions of its causes, or have its effect. -/
theorem exec_cases {i : Instr} {s t : State} (h : exec i s = .next t) :
    (∃ c n, RaisedBy i s c n ∧ t = s.raise c n) ∨ Effect i s t := by
  cases i with
  | hlt => right; simpa [exec, execHlt, Effect] using h.symm
  | ldi r imm =>
    rcases ldiHandler_cases r imm s with ⟨hr, hp⟩ | ⟨hr, hp⟩
    · exact .inl (runHandler_raise_cases h hp (raisedBy_reg (by simp [Instr.opcode]) hr))
    · exact (runHandler_advance_cases (i := .ldi r imm) (k := 3) setsPcBit_ldi (by simp [Instr.opcode]) h hp rfl rfl).imp
        id fun ⟨hin, ht⟩ => ⟨hr, hin, ht⟩
  | prn r =>
    rcases prnHandler_cases r s with ⟨hr, hp⟩ | ⟨hr, hp⟩
    · exact .inl (runHandler_raise_cases h hp (raisedBy_reg (by simp [Instr.opcode]) hr))
    · exact (runHandler_advance_cases (i := .prn r) (k := 2) setsPcBit_prn (by simp [Instr.opcode]) h hp rfl rfl).imp
        id fun ⟨hin, ht⟩ => ⟨hr, hin, ht⟩
  | push r =>
    rcases pushHandler_cases r s with ⟨hr, hp⟩ | ⟨hr, hc, hp⟩ | ⟨hr, hc, hp⟩
    · exact .inl (runHandler_raise_cases h hp (raisedBy_reg (by simp [Instr.opcode]) hr))
    · exact .inl (runHandler_raise_cases h hp
        (.inr (.inl ⟨rfl, fault_of_not_canPush hc, .inl ⟨.inl rfl, rfl⟩⟩)))
    · exact (runHandler_advance_cases (i := .push r) (k := 2) setsPcBit_push (by simp [Instr.opcode]) h hp rfl rfl).imp
        id fun ⟨hin, ht⟩ => ⟨hr, hc, hin, ht⟩
  | pop r =>
    rcases popHandler_cases r s with ⟨hr, hp⟩ | ⟨hr, v, w, hv, hw, ⟨hc, hp⟩ | ⟨hc, hp⟩⟩
    · exact .inl (runHandler_raise_cases h hp (raisedBy_reg (by simp [Instr.opcode]) hr))
    · exact .inl (runHandler_raise_cases h hp
        (.inr (.inl ⟨rfl, fault_of_not_canIncrement hc, .inr ⟨.inl rfl, rfl⟩⟩)))
    · exact (runHandler_advance_cases (i := .pop r) (k := 2) setsPcBit_pop (by simp [Instr.opcode]) h hp rfl rfl).imp
        id fun ⟨hin, ht⟩ => ⟨hr, v, w, hv, hw, hc, hin, ht⟩
  | call r =>
    rcases callHandler_cases r s with ⟨hr, hp⟩ | ⟨hr, hc, hp⟩ | ⟨hr, hc, hp⟩
    · exact .inl (runHandler_raise_cases h hp (raisedBy_reg (by simp [Instr.opcode]) hr))
    · exact .inl (runHandler_raise_cases h hp
        (.inr (.inl ⟨rfl, fault_of_not_canPush hc, .inl ⟨.inr rfl, rfl⟩⟩)))
    · exact .inr ⟨hr, hc, runHandler_setsPc setsPcBit_call h hp⟩
  | ret =>
    rcases retHandler_cases s with ⟨hc, hp⟩ | ⟨hc, hp⟩
    · exact .inl (runHandler_raise_cases h hp
        (.inr (.inl ⟨rfl, fault_of_not_canIncrement hc, .inr ⟨.inr rfl, rfl⟩⟩)))
    · exact .inr ⟨hc, runHandler_setsPc setsPcBit_ret h hp⟩
  | jmp r =>
    rcases jmpHandler_cases r s with ⟨hr, hp⟩ | ⟨hr, hp⟩
    · exact .inl (runHandler_raise_cases h hp (raisedBy_reg (by simp [Instr.opcode]) hr))
    · exact .inr ⟨hr, runHandler_setsPc setsPcBit_jmp h hp⟩
  | jeq r =>
    rcases branchHandler_cases s.flagE r s with ⟨hr, hp⟩ | ⟨hr, hp⟩
    · exact .inl (runHandler_raise_cases h hp (raisedBy_reg (by simp [Instr.opcode]) hr))
    · exact .inr ⟨hr, runHandler_setsPc setsPcBit_jeq h hp⟩
  | jne r =>
    rcases branchHandler_cases (!s.flagE) r s with ⟨hr, hp⟩ | ⟨hr, hp⟩
    · exact .inl (runHandler_raise_cases h hp (raisedBy_reg (by simp [Instr.opcode]) hr))
    · exact .inr ⟨hr, runHandler_setsPc setsPcBit_jne h hp⟩
  | add a b => exact aluHandler_run_cases (i := .add a b) setsPcBit_add operandCount_add h
  | sub a b => exact aluHandler_run_cases (i := .sub a b) setsPcBit_sub operandCount_sub h
  | mul a b => exact aluHandler_run_cases (i := .mul a b) setsPcBit_mul operandCount_mul h
  | cmp a b =>
    rcases cmpHandler_cases s with ⟨ha, hp⟩ | ⟨ha, hb, hp⟩ | ⟨ha, hb, hp⟩
    · exact .inl (runHandler_raise_cases h hp (raisedBy_reg (by simp [Instr.opcode]) ha))
    · exact .inl (runHandler_raise_cases h hp (raisedBy_reg (by simp [Instr.opcode]) hb))
    · exact (runHandler_advance_cases (i := .cmp a b) (k := 3) setsPcBit_cmp (by simp [Instr.opcode]) h hp rfl rfl).imp
        id fun ⟨hin, ht⟩ => ⟨ha, hb, hin, ht⟩
  | and a b => exact runExt_cases (i := .and a b) setsPcBit_and operandCount_and rfl h
  | or a b => exact runExt_cases (i := .or a b) setsPcBit_or operandCount_or rfl h
  | xor a b => exact runExt_cases (i := .xor a b) setsPcBit_xor operandCount_xor rfl h
  | shl a b => exact runExt_cases (i := .shl a b) setsPcBit_shl operandCount_shl rfl h
  | shr a b => exact runExt_cases (i := .shr a b) setsPcBit_shr operandCount_shr rfl h

end Sys2Proof.Machine
end

