-- ==== Sys2Proof/Laws/PerInstr.lean ====
section
/-! SUPPORT. The family of statements made per instruction: the shape of an instruction's encoding. -/

namespace Sys2Proof.Laws.EncodingShape

/-- An instruction's bytes begin with its opcode byte and are as many as that byte's bits 7:6 say
(30_encoding.md R70, R71); and the opcode byte alone tells the table the instruction stands in (R73). -/
def Statement (i : Instr) : Prop :=
  (encode i).head? = some i.opcode ∧ (encode i).length = instrLength i.opcode ∧
    (i.needsLogicExt = true → aluBit i.opcode = true)

theorem hlt : Statement .hlt :=
  ⟨rfl, (by decide : 1 = instrLength Opcode.hlt), fun h => nomatch h⟩
theorem ldi (r imm : Byte) : Statement (.ldi r imm) :=
  ⟨rfl, (by decide : 3 = instrLength Opcode.ldi), fun h => nomatch h⟩
theorem prn (r : Byte) : Statement (.prn r) :=
  ⟨rfl, (by decide : 2 = instrLength Opcode.prn), fun h => nomatch h⟩
theorem push (r : Byte) : Statement (.push r) :=
  ⟨rfl, (by decide : 2 = instrLength Opcode.push), fun h => nomatch h⟩
theorem pop (r : Byte) : Statement (.pop r) :=
  ⟨rfl, (by decide : 2 = instrLength Opcode.pop), fun h => nomatch h⟩
theorem call (r : Byte) : Statement (.call r) :=
  ⟨rfl, (by decide : 2 = instrLength Opcode.call), fun h => nomatch h⟩
theorem ret : Statement .ret :=
  ⟨rfl, (by decide : 1 = instrLength Opcode.ret), fun h => nomatch h⟩
theorem jmp (r : Byte) : Statement (.jmp r) :=
  ⟨rfl, (by decide : 2 = instrLength Opcode.jmp), fun h => nomatch h⟩
theorem jeq (r : Byte) : Statement (.jeq r) :=
  ⟨rfl, (by decide : 2 = instrLength Opcode.jeq), fun h => nomatch h⟩
theorem jne (r : Byte) : Statement (.jne r) :=
  ⟨rfl, (by decide : 2 = instrLength Opcode.jne), fun h => nomatch h⟩
theorem add (a b : Byte) : Statement (.add a b) :=
  ⟨rfl, (by decide : 3 = instrLength Opcode.add), fun h => nomatch h⟩
theorem sub (a b : Byte) : Statement (.sub a b) :=
  ⟨rfl, (by decide : 3 = instrLength Opcode.sub), fun h => nomatch h⟩
theorem mul (a b : Byte) : Statement (.mul a b) :=
  ⟨rfl, (by decide : 3 = instrLength Opcode.mul), fun h => nomatch h⟩
theorem cmp (a b : Byte) : Statement (.cmp a b) :=
  ⟨rfl, (by decide : 3 = instrLength Opcode.cmp), fun h => nomatch h⟩
theorem and (a b : Byte) : Statement (.and a b) :=
  ⟨rfl, (by decide : 3 = instrLength Opcode.and), fun _ => (by decide : aluBit Opcode.and = true)⟩
theorem or (a b : Byte) : Statement (.or a b) :=
  ⟨rfl, (by decide : 3 = instrLength Opcode.or), fun _ => (by decide : aluBit Opcode.or = true)⟩
theorem xor (a b : Byte) : Statement (.xor a b) :=
  ⟨rfl, (by decide : 3 = instrLength Opcode.xor), fun _ => (by decide : aluBit Opcode.xor = true)⟩
theorem shl (a b : Byte) : Statement (.shl a b) :=
  ⟨rfl, (by decide : 3 = instrLength Opcode.shl), fun _ => (by decide : aluBit Opcode.shl = true)⟩
theorem shr (a b : Byte) : Statement (.shr a b) :=
  ⟨rfl, (by decide : 3 = instrLength Opcode.shr), fun _ => (by decide : aluBit Opcode.shr = true)⟩

end Sys2Proof.Laws.EncodingShape
end

