-- ==== Sys2Proof/Laws/Step.lean ====
section
/-! SUPPORT. What the decoder's answer says of the bytes, and what a step can do, said once: `step_cases`. -/

namespace Sys2Proof.Machine

/-- The instruction a table row builds has the row's byte as its opcode, is one the core has, and its bytes are
the opcode and the operands it uses. -/
theorem classify_row_build {cfg : Config} {op : Byte} {r : OpRow} (h : classify cfg op = .row r) (opa opb : Byte) :
    (r.build opa opb).opcode = op ∧ (r.build opa opb).wf cfg = true ∧
      encode (r.build opa opb) = [op, opa, opb].take (operandCount op + 1) := by
  obtain ⟨rfl, ⟨-, hm⟩ | ⟨-, hm⟩⟩ := classify_eq_row h
  · cases he : cfg.aluLogicExt <;> simp only [aluTable, aluBaseTable, aluExtTable, he] at hm
    · simp only [Bool.false_eq_true, if_false, List.mem_cons, List.not_mem_nil, or_false] at hm
      rcases hm with rfl | rfl | rfl | rfl <;> simp [Instr.opcode, encode, Instr.wf, Instr.needsLogicExt]
    · simp only [if_true, List.cons_append, List.nil_append, List.mem_cons, List.not_mem_nil, or_false] at hm
      rcases hm with rfl | rfl | rfl | rfl | rfl | rfl | rfl | rfl | rfl <;>
        simp [Instr.opcode, encode, Instr.wf, he]
  · simp only [nonAluTable, List.mem_cons, List.not_mem_nil, or_false] at hm
    rcases hm with rfl | rfl | rfl | rfl | rfl | rfl | rfl | rfl | rfl | rfl <;>
      simp [Instr.opcode, encode, Instr.wf, Instr.needsLogicExt]

/-- The instruction at pc is made of the bytes at pc. -/
theorem State.instrAtPc_eq_instr {s : State} {i : Instr} (h : s.instrAtPc = .instr i) :
    i.opcode = s.byteAt 0#8 ∧ i.wf s.cfg = true ∧
      encode i = [s.byteAt 0#8, s.byteAt 1#8, s.byteAt 2#8].take (operandCount (s.byteAt 0#8) + 1) := by
  unfold State.instrAtPc decode at h
  split at h
  · next r hc => cases h; exact classify_row_build hc _ _
  · cases h

/-- The reject of the byte at pc says which bit 5 it has, and that no table has it. -/
theorem State.instrAtPc_eq_reject {s : State} {why : DecodeReject} (h : s.instrAtPc = .reject why) :
    (why = .unmappedAluOp (s.byteAt 0#8) ∧ aluBit (s.byteAt 0#8) = true ∧
        lookupRow (aluTable s.cfg) (s.byteAt 0#8) = none) ∨
      (why = .decodeFault (s.byteAt 0#8) ∧ aluBit (s.byteAt 0#8) = false ∧
        lookupRow nonAluTable (s.byteAt 0#8) = none) := by
  unfold State.instrAtPc decode classify at h
  by_cases ha : aluBit (s.byteAt 0#8) = true
  · rw [if_pos ha] at h
    cases hl : lookupRow (aluTable s.cfg) (s.byteAt 0#8) with
    | some r => simp [hl] at h
    | none => left; exact ⟨by simpa [hl] using h.symm, ha, rfl⟩
  · rw [if_neg ha] at h
    cases hl : lookupRow nonAluTable (s.byteAt 0#8) with
    | some r => simp [hl] at h
    | none => right; exact ⟨by simpa [hl] using h.symm, by simpa using ha, rfl⟩

/-- An effect leaves STATUS as it was, but for HLT's. -/
theorem Effect.status {i : Instr} {s t : State} (h : Effect i s t) :
    t.status = s.status ∨ i = .hlt ∧ t.status = .halted := by
  cases i <;> simp only [Effect, AluEffect] at h
  case hlt => subst h; exact .inr ⟨rfl, rfl⟩
  case ldi => obtain ⟨_, _, rfl⟩ := h; exact .inl rfl
  case prn => obtain ⟨_, _, rfl⟩ := h; exact .inl rfl
  case push => obtain ⟨_, _, _, rfl⟩ := h; exact .inl rfl
  case pop => obtain ⟨_, _, _, _, _, _, _, rfl⟩ := h; exact .inl rfl
  case call => obtain ⟨_, _, rfl⟩ := h; exact .inl rfl
  case ret => obtain ⟨_, rfl⟩ := h; exact .inl rfl
  case jmp => obtain ⟨_, rfl⟩ := h; exact .inl rfl
  case jeq => obtain ⟨_, rfl⟩ := h; exact .inl rfl
  case jne => obtain ⟨_, rfl⟩ := h; exact .inl rfl
  case cmp => obtain ⟨_, _, _, rfl⟩ := h; exact .inl rfl
  case add => obtain ⟨_, _, _, rfl⟩ := h; exact .inl rfl
  case sub => obtain ⟨_, _, _, rfl⟩ := h; exact .inl rfl
  case mul => obtain ⟨_, _, _, rfl⟩ := h; exact .inl rfl
  case and => obtain ⟨_, _, _, _, rfl⟩ := h; exact .inl rfl
  case or => obtain ⟨_, _, _, _, rfl⟩ := h; exact .inl rfl
  case xor => obtain ⟨_, _, _, _, rfl⟩ := h; exact .inl rfl
  case shl => obtain ⟨_, _, _, _, rfl⟩ := h; exact .inl rfl
  case shr => obtain ⟨_, _, _, _, rfl⟩ := h; exact .inl rfl

/-- The commit of a step answers a next state only on a next state of the instruction. -/
theorem State.commit_eq_next {s t : State} {o : StepOutcome} (h : s.commit o = .next t) :
    ∃ p, o = .next p ∧
      t = if p.status = .faulted then { s with status := .faulted, faultRec := p.faultRec } else p := by
  cases o with
  | next p => exact ⟨p, rfl, by simpa [State.commit] using h.symm⟩
  | fault why => simp [State.commit] at h
  | refused why => simp [State.commit] at h

/-- What a step that answers a next state did: it met a fault of fetch or of classify, or the instruction at pc
raised, or had its effect on the latched state. -/
theorem step_cases {s t : State} (h : step s = .next t) :
    s.status = .running ∧
      ((¬ s.InRange 2 ∧ t = s.raise .memOutOfBounds 256) ∨
        (s.InRange 2 ∧ aluBit (s.byteAt 0#8) = true ∧ lookupRow (aluTable s.cfg) (s.byteAt 0#8) = none ∧
          t = s.raise .unmappedAluOp (byteInt (s.byteAt 0#8))) ∨
        (s.InRange 2 ∧ aluBit (s.byteAt 0#8) = false ∧ lookupRow nonAluTable (s.byteAt 0#8) = none ∧
          t = s.raise .decodeFault (byteInt (s.byteAt 0#8))) ∨
        (s.InRange 2 ∧ ∃ i, s.instrAtPc = .instr i ∧
          ((∃ c n, RaisedBy i s.latched c n ∧ t = s.raise c n) ∨ Effect i s.latched t))) := by
  have hs : s.status = .running := by
    unfold step at h
    split at h
    · cases h
    · cases h
    · assumption
  refine ⟨hs, ?_⟩
  rw [step_running hs] at h
  by_cases hr : s.InRange 2
  · rw [if_pos hr] at h
    cases hi : s.instrAtPc with
    | reject why =>
      rcases State.instrAtPc_eq_reject hi with ⟨rfl, ha, hl⟩ | ⟨rfl, ha, hl⟩
      · right; left; exact ⟨hr, ha, hl, by simpa [hi] using h.symm⟩
      · right; right; left; exact ⟨hr, ha, hl, by simpa [hi] using h.symm⟩
    | instr i =>
      right; right; right
      refine ⟨hr, i, rfl, ?_⟩
      simp only [hi] at h
      obtain ⟨p, hp, rfl⟩ := State.commit_eq_next h
      rcases exec_cases hp with ⟨c, n, hc, rfl⟩ | he
      · exact .inl ⟨c, n, hc, rfl⟩
      · right
        have hnf : p.status ≠ .faulted := by
          rcases he.status with h' | ⟨-, h'⟩
          · rw [h', State.latched_status, hs]; decide
          · rw [h']; decide
        rwa [if_neg hnf]
  · rw [if_neg hr] at h
    exact .inl ⟨hr, by simpa using h.symm⟩

end Sys2Proof.Machine
end

