-- ==== Sys2Proof/Machine/Assembler.lean ====
section
/-! DEFINITION. The assembler syntax of 30_encoding.md R88 and the bytes it stands for (R89). It has no effect on the
machine (92_eei_decisions.md D23). What R88 leaves open is log 16. -/

namespace Sys2Proof.Machine

/-- Pieces of a text between separators. -/
def splitChars (isSep : Char → Bool) : List Char → List (List Char)
  | [] => [[]]
  | c :: cs =>
    if isSep c then [] :: splitChars isSep cs
    else
      match splitChars isSep cs with
      | [] => [[c]]
      | piece :: pieces => (c :: piece) :: pieces

/-- A text without the spaces at its ends. -/
def trimSpaces (cs : List Char) : List Char :=
  ((cs.dropWhile (· == ' ')).reverse.dropWhile (· == ' ')).reverse

/-- The value of a digit, decimal or hexadecimal. -/
def digitValue (c : Char) : Option Nat :=
  let n := c.toNat
  if 48 ≤ n ∧ n ≤ 57 then some (n - 48)
  else if 65 ≤ n ∧ n ≤ 70 then some (n - 55)
  else if 97 ≤ n ∧ n ≤ 102 then some (n - 87)
  else none

/-- The number that digits in a base write, after a leading part worth `acc`. -/
def numberFrom (base acc : Nat) : List Char → Option Nat
  | [] => some acc
  | c :: cs =>
    match digitValue c with
    | some d => if d < base then numberFrom base (acc * base + d) cs else none
    | none => none

/-- The number that one or more digits in a base write. -/
def number (base : Nat) (cs : List Char) : Option Nat :=
  if cs.isEmpty then none else numberFrom base 0 cs

/-- The byte a literal in range 0..255 stands for. -/
def byteOfNumber (n : Option Nat) : Option Byte :=
  match n with
  | some k => if k < 256 then some (BitVec.ofNat 8 k) else none
  | none => none

/-- "a decimal number 0..255, or a binary `0b` or hexadecimal `0x` literal" (R88). -/
def parseImmediate : List Char → Option Byte
  | '0' :: 'b' :: cs => byteOfNumber (number 2 cs)
  | '0' :: 'x' :: cs => byteOfNumber (number 16 cs)
  | cs => byteOfNumber (number 10 cs)

/-- "`R0` to `R7`; `SP` is accepted as an alias of `R7`" (R88). -/
def parseRegister : List Char → Option Byte
  | ['S', 'P'] => some 7
  | ['R', c] =>
    match digitValue c with
    | some d => if d < 8 then some (BitVec.ofNat 8 d) else none
    | none => none
  | _ => none

/-- The mnemonics without operands. -/
def plainForms : List (String × Instr) := [("HLT", .hlt), ("RET", .ret)]

/-- The mnemonics with one register operand. -/
def oneRegForms : List (String × (Byte → Instr)) :=
  [("PRN", .prn), ("PUSH", .push), ("POP", .pop), ("CALL", .call), ("JMP", .jmp), ("JEQ", .jeq), ("JNE", .jne)]

/-- The mnemonics with two register operands. DESIGN CHOICE (log 16): AND, OR, XOR, SHL and SHR are accepted whatever
ALU_LOGIC_EXT is, which R88 and R89 leave open; a core without the extension faults their bytes. -/
def twoRegForms : List (String × (Byte → Byte → Instr)) :=
  [("ADD", .add), ("SUB", .sub), ("MUL", .mul), ("CMP", .cmp), ("AND", .and), ("OR", .or), ("XOR", .xor),
   ("SHL", .shl), ("SHR", .shr)]

/-- The form a mnemonic names. -/
def formOf {α : Type} : List (String × α) → List Char → Option α
  | [], _ => none
  | (name, form) :: forms, m => if name.toList = m then some form else formOf forms m

/-- The instruction of a mnemonic and its operand texts. -/
def assembleForm (m : List Char) (operands : List (List Char)) : Option Instr :=
  match operands with
  | [] => formOf plainForms m
  | [x] =>
    match formOf oneRegForms m, parseRegister x with
    | some form, some r => some (form r)
    | _, _ => none
  | [x, y] =>
    if "LDI".toList = m then
      match parseRegister x, parseImmediate y with
      | some r, some imm => some (.ldi r imm)
      | _, _ => none
    else
      match formOf twoRegForms m, parseRegister x, parseRegister y with
      | some form, some a, some b => some (form a b)
      | _, _, _ => none
  | _ => none

/-- One instruction: "the mnemonic in capitals, then its operands separated by a comma and optional spaces" (R88). -/
def assembleInstr (cs : List Char) : Option Instr :=
  let text := trimSpaces cs
  let m := text.takeWhile (· != ' ')
  let tail := trimSpaces (text.dropWhile (· != ' '))
  assembleForm m (if tail.isEmpty then [] else (splitChars (· == ',') tail).map trimSpaces)

/-- The bytes of the pieces of a program text; blank pieces give none. -/
def assemblePieces : List (List Char) → Option (List Byte)
  | [] => some []
  | piece :: pieces =>
    if (trimSpaces piece).isEmpty then assemblePieces pieces
    else
      match assembleInstr piece, assemblePieces pieces with
      | some i, some bytes => some (encode i ++ bytes)
      | _, _ => none

/-- The bytes of a program text: lines, with "instructions on one line ... separated by `;`" (R88, R89). -/
def assemble (text : String) : Option (List Byte) :=
  assemblePieces (splitChars (fun c => c == ';' || c == '\n') text.toList)

end Sys2Proof.Machine
end

