-- ==== Sys2Proof/Tests/Slice0.lean ====
section
/-! SUPPORT. Tests: expected results are the vectors of 95_test_vectors.md and the words of 30_encoding.md R78, and for
every statement with hypotheses a concrete state and operands that meet them. -/

namespace Sys2Proof.Tests

open Sys2Proof Sys2Proof.Machine

/-! ## Helpers -/

/-- The next state, where there is one. -/
def ran : StepOutcome → Option State
  | .next t => some t
  | _ => none

theorem of_ran {o : StepOutcome} {P : State → Prop} [DecidablePred P]
    (h : (ran o).any (fun t => decide (P t)) = true) : ∃ t, o = .next t ∧ P t := by
  cases o with
  | next t => exact ⟨t, rfl, of_decide_eq_true h⟩
  | fault why => cases h
  | refused why => cases h

/-- `bytes` placed at pc = `pc` of the reset state. -/
def codeAt (pc : Byte) (bytes : List Byte) : State :=
  { State.reset with pc := pc, mem := placeImage pc.toNat bytes [] }

def withReg (i : RegIdx) (v : Byte) (s : State) : State := s.setReg i v
def withByte (a : Nat) (v : Byte) (s : State) : State := { s with mem := s.mem.write a v }
def withFl (v : Byte) (s : State) : State := { s with fl := v }
def wrapping (s : State) : State := { s with cfg := { s.cfg with oobPolicy := .wrap } }
def withExt (s : State) : State := { s with cfg := s.cfg.withLogicExt }

/-- What a step leaves, as far as `f` looks. -/
def after {α : Type} (s : State) (f : State → α) : Option α := (ran (step s)).map f

/-- The cause, pc, opcode and info of the fault a step raises. -/
def faultOf (s : State) : Option (Option FaultRecord) := after s State.hostFault

/-! ## Well-formedness: the one check refuses each of the five optional instructions by default -/

theorem test_wf_refuses_and : (Instr.and 0 1).wf Config.default = false := by decide
theorem test_wf_refuses_or : (Instr.or 0 1).wf Config.default = false := by decide
theorem test_wf_refuses_xor : (Instr.xor 0 1).wf Config.default = false := by decide
theorem test_wf_refuses_shl : (Instr.shl 0 1).wf Config.default = false := by decide
theorem test_wf_refuses_shr : (Instr.shr 0 1).wf Config.default = false := by decide
theorem test_wf_accepts_bad_register : (Instr.add 8 255).wf Config.default = true := by decide

/-! ## Decoding, each word written out from 30_encoding.md R78 -/

theorem test_decode_hlt : decodeTableWord 8 0b00000001 = some .hlt := by decide
theorem test_decode_ldi : decodeTableWord 24 0b00001000_00000011_10000010 = some (.ldi 3 8) := by decide
theorem test_decode_prn : decodeTableWord 16 0b00000110_01000111 = some (.prn 6) := by decide
theorem test_decode_push : decodeTableWord 16 0b00000101_01000101 = some (.push 5) := by decide
theorem test_decode_pop : decodeTableWord 16 0b00000111_01000110 = some (.pop 7) := by decide
theorem test_decode_call : decodeTableWord 16 0b00000010_01010000 = some (.call 2) := by decide
theorem test_decode_ret : decodeTableWord 8 0b00010001 = some .ret := by decide
theorem test_decode_jmp : decodeTableWord 16 0b00000001_01010100 = some (.jmp 1) := by decide
theorem test_decode_jeq : decodeTableWord 16 0b11111111_01010101 = some (.jeq 255) := by decide
theorem test_decode_jne : decodeTableWord 16 0b00000100_01010110 = some (.jne 4) := by decide
theorem test_decode_add : decodeTableWord 24 0b00000010_00000001_10100000 = some (.add 1 2) := by decide
theorem test_decode_sub : decodeTableWord 24 0b00000011_00000001_10100001 = some (.sub 1 3) := by decide
theorem test_decode_mul : decodeTableWord 24 0b00000100_00000001_10100010 = some (.mul 1 4) := by decide
theorem test_decode_cmp : decodeTableWord 24 0b00000101_00000001_10100111 = some (.cmp 1 5) := by decide
theorem test_decode_and : decodeTableWord 24 0b00000110_00000001_10101000 = some (.and 1 6) := by decide
theorem test_decode_or : decodeTableWord 24 0b00000111_00000001_10101010 = some (.or 1 7) := by decide
theorem test_decode_xor : decodeTableWord 24 0b00000000_00000001_10101011 = some (.xor 1 0) := by decide
theorem test_decode_shl : decodeTableWord 24 0b00000001_00000010_10101100 = some (.shl 2 1) := by decide
theorem test_decode_shr : decodeTableWord 24 0b00000001_00000011_10101101 = some (.shr 3 1) := by decide

/-- The bytes 0..255 that Classify rejects with the ALU bit `alu`. -/
def unmapped (cfg : Config) (alu : Bool) : List Nat :=
  (List.range 256).filter fun n =>
    match classify cfg (BitVec.ofNat 8 n) with
    | .row _ => false
    | .reject _ => aluBit (BitVec.ofNat 8 n) == alu

/-- 30_encoding.md R81: 118 bytes raise DecodeFault, 124 raise UnmappedAluOp, 119 with the extension. -/
theorem test_unmapped_counts :
    (unmapped Config.default false).length = 118 ∧ (unmapped Config.default true).length = 124 ∧
      (unmapped Config.default.withLogicExt true).length = 119 := by decide +kernel

/-! ## The step and the faults (95_test_vectors.md section 2.1) -/

/-- V6, V9, V10: no aliasing of a byte that differs from a mapped one in a field. -/
theorem test_no_aliasing :
    faultOf (codeAt 5 [0xA3]) = some (some ⟨.unmappedAluOp, 5, 0xA3, 0xA3⟩) ∧
      faultOf (codeAt 5 [0xE0]) = some (some ⟨.unmappedAluOp, 5, 0xE0, 0xE0⟩) ∧
      faultOf (codeAt 5 [0x92]) = some (some ⟨.decodeFault, 5, 0x92, 0x92⟩) := by decide

/-- P5a: all memory zero. -/
theorem test_empty_memory_faults : faultOf State.reset = some (some ⟨.decodeFault, 0, 0, 0⟩) := by decide

/-- V11, V18: at 255 the fetch faults first. -/
theorem test_fetch_at_255 : faultOf (codeAt 255 [0x00]) = some (some ⟨.memOutOfBounds, 255, 0, 256⟩) := by decide

/-- V51: the JMP to 0xFE itself raises nothing; the step after it does. -/
theorem test_fetch_at_254 : faultOf (codeAt 254 []) = some (some ⟨.memOutOfBounds, 254, 0, 256⟩) := by decide

/-- V24, R191: a fault leaves the latches, the registers and pc as they were. -/
theorem test_fault_commits_nothing :
    after (codeAt 7 [0x82, 0x08, 0x01]) (fun t => (t.regs, t.pc, t.ir, t.out)) =
      some (RegFile.reset, 7, 0, []) := by decide

/-- 10_state.md R35: no step leaves HALTED. -/
theorem test_halted_is_final : ran (step State.reset.halt) = none := by decide

/-! ## The instructions, at most two vectors each -/

/-- V3. -/
theorem test_hlt : after (codeAt 10 [0x01]) (fun t => (t.status, t.pc)) = some (.halted, 10) := by decide
/-- V16: under WRAP at 255, OPA and OPB come from addresses 0 and 1. -/
theorem test_hlt_wraps : after (wrapping (withByte 0 0x82 (codeAt 255 [0x01])))
    (fun t => (t.status, t.opa, t.opb)) = some (.halted, 0x82, 0) := by decide
/-- V1. -/
theorem test_ldi : after (codeAt 0 [0x82, 0x05, 0x07]) (fun t => (t.reg 5, t.pc)) = some (7, 3) := by decide
/-- V13. -/
theorem test_ldi_at_253 : faultOf (codeAt 253 [0x82, 0x00, 0x09]) = some (some ⟨.memOutOfBounds, 253, 0x82, 256⟩) := by
  decide
/-- V29. -/
theorem test_prn : after (codeAt 0 [0x47, 0x07]) (fun t => (t.out, t.hostLines)) = some ([244], ['2', '4', '4'] ++ lineEnd) := by
  decide
/-- V28. -/
theorem test_prn_bad_register : faultOf (codeAt 0 [0x47, 0x09]) = some (some ⟨.regOutOfBounds, 0, 0x47, 9⟩) := by decide
/-- V31. -/
theorem test_push : after (withReg 0 0x2A (codeAt 0 [0x45, 0x00]))
    (fun t => (t.reg 7, t.mem.read 0xF3, t.pc)) = some (0xF3, 0x2A, 2) := by decide
/-- V35. -/
theorem test_push_sp : after (codeAt 0 [0x45, 0x07]) (fun t => (t.reg 7, t.mem.read 0xF3)) = some (0xF3, 0xF3) := by
  decide
/-- V37. -/
theorem test_pop : after (withReg 7 0xF3 (withByte 0xF3 0x2A (codeAt 0 [0x46, 0x01])))
    (fun t => (t.reg 1, t.reg 7)) = some (0x2A, 0xF4) := by decide
/-- V41. -/
theorem test_pop_sp : after (withReg 7 0xF3 (withByte 0xF3 0x40 (codeAt 0 [0x46, 0x07])))
    (fun t => t.reg 7) = some 0x41 := by decide
/-- V43. -/
theorem test_call : after (withReg 2 16 (codeAt 9 [0x50, 0x02]))
    (fun t => (t.reg 7, t.mem.read 0xF3, t.pc)) = some (0xF3, 11, 16) := by decide
/-- V46. -/
theorem test_call_wraps : after (wrapping (codeAt 255 [0x50]))
    (fun t => (t.reg 7, t.mem.read 0xF3, t.pc)) = some (0xF3, 1, 0) := by decide
/-- V47. -/
theorem test_ret : after (withReg 7 0xF3 (withByte 0xF3 0x0B (codeAt 0 [0x11])))
    (fun t => (t.pc, t.reg 7)) = some (11, 0xF4) := by decide
/-- V48. -/
theorem test_ret_overflow : faultOf (withReg 7 0xFF (codeAt 0 [0x11])) = some (some ⟨.stackOutOfBounds, 0, 0x11, 256⟩) := by
  decide
/-- V50. -/
theorem test_jmp : after (withReg 0 0x20 (codeAt 0 [0x54, 0x00])) (fun t => t.pc) = some 0x20 := by decide
/-- V53, V56. -/
theorem test_jeq : after (withFl 1 (withReg 2 16 (codeAt 12 [0x55, 0x02]))) (fun t => t.pc) = some 16 ∧
    after (withFl 6 (withReg 2 16 (codeAt 12 [0x55, 0x02]))) (fun t => t.pc) = some 14 := by decide
/-- V57: the register is checked on the path not taken. -/
theorem test_jeq_bad_register : faultOf (withFl 4 (codeAt 12 [0x55, 0x08])) =
    some (some ⟨.regOutOfBounds, 12, 0x55, 8⟩) := by decide
/-- V58, V59. -/
theorem test_jne : after (withFl 2 (withReg 3 12 (codeAt 20 [0x56, 0x03]))) (fun t => t.pc) = some 12 ∧
    after (withFl 1 (withReg 3 12 (codeAt 20 [0x56, 0x03]))) (fun t => t.pc) = some 22 := by decide
/-- V63. -/
theorem test_add : after (withFl 2 (withReg 0 200 (withReg 1 100 (codeAt 0 [0xA0, 0x00, 0x01]))))
    (fun t => (t.reg 0, t.reg 1, t.fl, t.pc)) = some (44, 100, 2, 3) := by decide
/-- V82. -/
theorem test_add_bad_b : faultOf (codeAt 0 [0xA0, 0x00, 0x08]) = some (some ⟨.regOutOfBounds, 0, 0xA0, 8⟩) := by decide
/-- V67. -/
theorem test_sub : after (withReg 0 3 (withReg 1 5 (codeAt 0 [0xA1, 0x00, 0x01]))) (fun t => t.reg 0) = some 254 := by
  decide
/-- V72. -/
theorem test_mul : after (withReg 0 20 (withReg 1 13 (codeAt 0 [0xA2, 0x00, 0x01]))) (fun t => t.reg 0) = some 4 := by
  decide
/-- V79, S5: unsigned, and the old flags are overwritten. -/
theorem test_cmp : after (withFl 7 (withReg 0 0x80 (withReg 1 0x7F (codeAt 0 [0xA7, 0x00, 0x01])))) (fun t => t.fl) =
    some 0x02 := by decide
/-- V83: operand A is checked first. -/
theorem test_cmp_bad_registers : faultOf (codeAt 0 [0xA7, 0x09, 0x0A]) = some (some ⟨.regOutOfBounds, 0, 0xA7, 9⟩) := by
  decide
/-- V84. -/
theorem test_and : after (withExt (withReg 0 0xF0 (withReg 1 0x3C (codeAt 0 [0xA8, 0x00, 0x01])))) (fun t => t.reg 0) =
    some 0x30 := by decide
/-- V20. -/
theorem test_and_absent : faultOf (codeAt 0 [0xA8, 0x00, 0x01]) = some (some ⟨.unmappedAluOp, 0, 0xA8, 0xA8⟩) := by
  decide
/-- V86. -/
theorem test_or : after (withExt (withReg 0 0xF0 (withReg 1 0x3C (codeAt 0 [0xAA, 0x00, 0x01])))) (fun t => t.reg 0) =
    some 0xFC := by decide
/-- V87. -/
theorem test_xor : after (withExt (withReg 0 0xF0 (withReg 1 0x3C (codeAt 0 [0xAB, 0x00, 0x01])))) (fun t => t.reg 0) =
    some 0xCC := by decide
/-- V89. -/
theorem test_shl : after (withExt (withReg 0 0x81 (withReg 1 1 (codeAt 0 [0xAC, 0x00, 0x01])))) (fun t => t.reg 0) =
    some 0x02 := by decide
/-- V93: the whole value of register b is the amount. -/
theorem test_shl_by_200 : after (withExt (withReg 0 0x01 (withReg 1 200 (codeAt 0 [0xAC, 0x00, 0x01])))) (fun t => t.reg 0) =
    some 0 := by decide
/-- V95. -/
theorem test_shr : after (withExt (withReg 0 0x80 (withReg 1 7 (codeAt 0 [0xAD, 0x00, 0x01])))) (fun t => t.reg 0) =
    some 1 := by decide
/-- V96. -/
theorem test_shr_by_8 : after (withExt (withReg 0 0xFF (withReg 1 8 (codeAt 0 [0xAD, 0x00, 0x01])))) (fun t => t.reg 0) =
    some 0 := by decide

/-! ## The assembler (30_encoding.md R88, R89) -/

/-- The source's text and image (95_test_vectors.md S1). -/
theorem test_assemble_source_example :
    assemble "LDI R0,8; PRN R0; HLT" = some [0x82, 0x00, 0x08, 0x47, 0x00, 0x01] := by decide

/-- `SP` is R7, and the three kinds of literal (R88). -/
theorem test_assemble_forms :
    assemble "LDI SP , 0xFf\nLDI R1,0b101; ADD R2, R7" = some [0x82, 7, 0xFF, 0x82, 1, 5, 0xA0, 2, 7] ∧
      assemble "LDI R8, 1" = none ∧ assemble "LDI R0, 256" = none ∧ assemble "NOP" = none := by decide

/-! ## Placing an instruction -/

theorem test_withFetchWord_runs_ext :
    after (State.reset.withFetchWord 24 0x0100AC) (fun t => (t.status, t.pc)) = some (.running, 3) := by decide

/-! ## The hypotheses of the statements can be met -/

theorem witness_LoadPlacesImage :
    ([1, 2] : List Byte).length ≤ 256 ∧ (List.replicate 256 (0 : Byte)).length ≤ 256 ∧
      256 < (List.replicate 257 (0 : Byte)).length := by
  rw [List.length_replicate, List.length_replicate]; decide

theorem witness_LoadedCoreMeetsInvariant : ∃ s, loadImage Config.default [0x82, 0x00, 0x08] = some s := ⟨_, rfl⟩

theorem witness_DecodeOfEncodeIsIdentity :
    (Instr.shr 255 8).wf Config.default.withLogicExt = true ∧
      encode (.shr 255 8) ++ [9] = 0xAD :: 255 :: 8 :: [9] ∧ encode .hlt ++ [9, 8] = 0x01 :: 9 :: 8 :: [] := by decide

theorem witness_EncodeOfDecodeIsIdentity :
    decodeBytes Config.default [0x47, 0xFF, 0x12] = .instr (.prn 0xFF) [0x12] := by decide

theorem witness_UnusedOperandBytesAreIgnored :
    operandCount 0x01 = 0 ∧ operandCount 0x45 = 1 ∧ (codeAt 254 [0x01]).status = .running ∧
      operandCount ((codeAt 254 [0x01]).byteAt 0) ≤ 1 ∧ ¬ (codeAt 254 [0x01]).InRange 2 := by decide

theorem witness_StepsHappenExactlyWhileRunning :
    (∃ t, step State.reset = .next t) ∧ ∃ s, loadImage Config.default [] = some s :=
  ⟨(of_ran (P := fun _ => True) (by decide)).imp fun _ h => h.1, _, rfl⟩

theorem witness_StepRunsTheDecodedInstruction :
    (codeAt 253 [0x47, 0x07]).status = .running ∧ (codeAt 253 [0x47, 0x07]).InRange 2 ∧
      (codeAt 253 [0x47, 0x07]).instrAtPc = .instr (.prn 7) ∧
      (wrapping (codeAt 255 [0x11])).InRange 2 ∧ (wrapping (codeAt 255 [0x11])).instrAtPc = .instr .ret := by decide

theorem witness_FetchLatchesThreeBytes :
    ∃ t, step (codeAt 253 [0x47, 0x07, 0x99]) = .next t ∧ t.status ≠ .faulted := of_ran (by decide)

theorem witness_PcAdvancesUnlessTheInstructionSetsIt :
    (∃ t, step (codeAt 252 [0x82, 0x07, 0x99]) = .next t ∧
        (t.status = .running ∧ setsPcBit ((codeAt 252 [0x82, 0x07, 0x99]).byteAt 0) = false)) ∧
      setsPcBit 0x54 = true ∧ jmpHandler 0 (codeAt 3 []) = .ok { codeAt 3 [] with pc := 0 } :=
  ⟨of_ran (by decide), by decide, by decide⟩

theorem witness_FaultsArePrecise : ∃ t, step (codeAt 255 [0x01]) = .next t ∧ t.status = .faulted := of_ran (by decide)

theorem witness_UnmappedAluByteFaults :
    (codeAt 253 [0xA8]).status = .running ∧ (codeAt 253 [0xA8]).InRange 2 ∧ aluBit ((codeAt 253 [0xA8]).byteAt 0) = true ∧
      (codeAt 253 [0xA8]).byteAt 0 ∉ ([0xA0, 0xA1, 0xA2, 0xA7] : List Byte) ∧
      ¬ (codeAt 253 [0xA8]).cfg.aluLogicExt = true ∧
      (withExt (codeAt 0 [0xA9])).InRange 2 ∧ aluBit ((withExt (codeAt 0 [0xA9])).byteAt 0) = true ∧
      (withExt (codeAt 0 [0xA9])).byteAt 0 ∉ ([0xA0, 0xA1, 0xA2, 0xA7, 0xA8, 0xAA, 0xAB, 0xAC, 0xAD] : List Byte) := by
  decide

theorem witness_UnmappedByteIsDecodeFault :
    (codeAt 253 [0x00]).status = .running ∧ (codeAt 253 [0x00]).InRange 2 ∧ aluBit ((codeAt 253 [0x00]).byteAt 0) = false ∧
      (codeAt 253 [0x00]).byteAt 0 ∉
        ([0x01, 0x82, 0x47, 0x45, 0x46, 0x50, 0x11, 0x54, 0x55, 0x56] : List Byte) := by decide

theorem witness_FetchPastTheTopFaultsFirst :
    (codeAt 254 [0x01]).status = .running ∧ (codeAt 254 [0x01]).cfg.oobPolicy = .fault ∧
      254 ≤ (codeAt 254 [0x01]).pc.toNat ∧ 254 ≤ (codeAt 255 [0x01]).pc.toNat := by decide

theorem witness_BadRegisterOperandFaults :
    (codeAt 253 [0xA7, 0x07, 0x08]).status = .running ∧ (codeAt 253 [0xA7, 0x07, 0x08]).InRange 2 ∧
      (codeAt 253 [0xA7, 0x07, 0x08]).instrAtPc = .instr (.cmp 7 8) ∧
      (regOperands (.cmp 7 8)).find? (fun x => 8 ≤ x.toNat) = some 8 ∧
      (regOperands (.add 255 8)).find? (fun x => 8 ≤ x.toNat) = some 255 := by decide

theorem witness_StackOutOfRangeFaults :
    State.reset.cfg.oobPolicy = .fault ∧ (withReg 7 0 State.reset).reg 7 = 0 ∧ (7 : Byte).toNat < 8 ∧
      (6 : Byte).toNat < 7 ∧ (withReg 7 255 State.reset).reg 7 = 255 ∧
      (withByte 0xF4 255 State.reset).mem.read ((withByte 0xF4 255 State.reset).reg 7).toNat = 255 := by decide

theorem witness_AdvancePastTheTopFaults :
    (codeAt 253 [0xA0, 0x07, 0x00]).status = .running ∧ (codeAt 253 [0xA0, 0x07, 0x00]).cfg.oobPolicy = .fault ∧
      (codeAt 253 [0xA0, 0x07, 0x00]).pc = 253 ∧ (codeAt 253 [0xA0, 0x07, 0x00]).instrAtPc = .instr (.add 7 0) ∧
      instrLength (Instr.add 7 0).opcode = 3 ∧ ∀ r ∈ regOperands (.add 7 0), r.toNat < 8 := by decide

theorem witness_AbsentExtensionFaults :
    State.reset.cfg.aluLogicExt = false ∧ (Instr.xor 9 0).needsLogicExt = true := by decide

theorem witness_WrappingCoreNeverGoesOutOfBounds :
    ∃ t, step (wrapping (codeAt 253 [0x47, 0x08])) = .next t ∧
      (t.status = .faulted ∧ (wrapping (codeAt 253 [0x47, 0x08])).cfg.oobPolicy = .wrap) := of_ran (by decide)

theorem witness_HltHaltsAtItsOwnAddress :
    (codeAt 253 [0x01]).status = .running ∧ (codeAt 253 [0x01]).InRange 2 ∧ (codeAt 253 [0x01]).byteAt 0 = 0x01 := by
  decide

theorem witness_LdiLoadsItsImmediate :
    (7 : Byte).toNat < 8 ∧ (codeAt 252 []).InRange 3 ∧ 8 ≤ (8 : Byte).toNat ∧
      (codeAt 253 []).cfg.oobPolicy = .fault ∧ (codeAt 253 []).pc = 253 ∧ (wrapping (codeAt 255 [])).InRange 3 := by decide

theorem witness_PrnEmitsTheRegister :
    (7 : Byte).toNat < 8 ∧ (codeAt 253 []).InRange 2 ∧ 8 ≤ (255 : Byte).toNat := by decide

theorem witness_PushStoresBelowTheTop :
    (7 : Byte).toNat < 8 ∧ (withReg 7 1 (codeAt 253 [])).CanPush ∧ (withReg 7 1 (codeAt 253 [])).InRange 2 ∧
      (wrapping (withReg 7 0 State.reset)).CanPush := by decide

theorem witness_PopLoadsTheTop :
    (withReg 7 254 State.reset).CanIncrement ((withReg 7 254 State.reset).reg 7) ∧
      (withByte 0xF4 254 State.reset).CanIncrement ((withByte 0xF4 254 State.reset).mem.read 0xF4) ∧
      (codeAt 253 []).InRange 2 ∧ (wrapping State.reset).CanIncrement 255 := by decide

theorem witness_CallStacksTheReturnAddress :
    (7 : Byte).toNat < 8 ∧ (withReg 7 1 (codeAt 253 [])).CanPush ∧ (withReg 7 1 (codeAt 253 [])).InRange 2 ∧
      (wrapping (withReg 7 0 (codeAt 255 []))).CanPush ∧ (wrapping (withReg 7 0 (codeAt 255 []))).InRange 2 := by decide

theorem witness_RetPopsThePc : (withReg 7 254 State.reset).CanIncrement ((withReg 7 254 State.reset).reg 7) := by decide

theorem witness_JumpsGoWhereTheRulesSay : (7 : Byte).toNat < 8 ∧ (codeAt 253 []).InRange 2 := by decide

theorem witness_ArithmeticWrapsModulo256 :
    (7 : Byte).toNat < 8 ∧ (codeAt 252 []).InRange 3 ∧ 244 = ((codeAt 252 []).reg ⟨(7 : Byte).toNat, by decide⟩).toNat := by
  decide

theorem witness_CmpSetsExactlyOneFlag :
    (codeAt 252 [0xA7, 0x07, 0x00]).latched.opa.toNat < 8 ∧ (codeAt 252 [0xA7, 0x07, 0x00]).latched.InRange 3 ∧
      ((codeAt 252 [0xA7, 0x07, 0x00]).byteAt 1).toNat < 8 ∧ ((codeAt 252 [0xA7, 0x07, 0x00]).byteAt 2).toNat < 8 ∧
      (codeAt 252 [0xA7, 0x07, 0x00]).status = .running ∧ (codeAt 252 [0xA7, 0x07, 0x00]).byteAt 0 = 0xA7 := by decide

theorem witness_LogicIsBitwise :
    (withExt (codeAt 252 [])).cfg.aluLogicExt = true ∧ (withExt (codeAt 252 [])).InRange 3 ∧ (7 : Byte).toNat < 8 := by
  decide

theorem witness_ShiftsAreLogical :
    (withExt (withReg 1 8 (codeAt 252 []))).cfg.aluLogicExt = true ∧ (withExt (withReg 1 8 (codeAt 252 []))).InRange 3 ∧
      8 = ((withExt (withReg 1 8 (codeAt 252 []))).reg ⟨(1 : Byte).toNat, by decide⟩).toNat := by decide

theorem witness_OnlyDestinationRegistersChange :
    ∃ t, exec (.pop 3) (withByte 0xF4 9 State.reset) = .next t ∧
      (t.reg 3 ≠ (withByte 0xF4 9 State.reset).reg 3 ∧ t.reg 7 ≠ (withByte 0xF4 9 State.reset).reg 7) :=
  of_ran (by decide)

theorem witness_MemoryChangesOnlyAtThePushSlot :
    (∃ t, exec (.push 7) State.reset = .next t ∧ (t.status = .running ∧ (0xF4 : Int) ≠ State.reset.pushSlot)) ∧
      ∃ t, exec .ret State.reset = .next t ∧ t.status = .running :=
  ⟨of_ran (by decide), of_ran (by decide)⟩

theorem witness_OtherStateIsFramed :
    (∃ t, exec .hlt State.reset = .next t ∧ t.status ≠ .faulted) ∧
      (∃ t, exec (.prn 8) State.reset = .next t ∧ (State.reset.status ≠ .faulted ∧ t.status = .faulted)) ∧
      ∃ t, exec (.prn 7) State.reset = .next t ∧ t.status ≠ .faulted :=
  ⟨of_ran (by decide), of_ran (by decide), of_ran (by decide)⟩

theorem witness_EveryStepKeepsTheInvariant :
    State.reset.Inv ∧ (∃ t, step State.reset = .next t ∧ t.status = .faulted) ∧
      (codeAt 0 [0x45, 0x07]).Inv ∧ ∃ t, step (codeAt 0 [0x45, 0x07]) = .next t ∧ t.status = .running :=
  ⟨by decide, of_ran (by decide), by decide, of_ran (by decide)⟩

theorem witness_OnlyPushAndCallWriteMemory :
    (∃ s, loadImage Config.default [1] = some s) ∧
      ∃ t, step (codeAt 0 [0x45, 0x07]) = .next t ∧ t.mem ≠ (codeAt 0 [0x45, 0x07]).mem :=
  ⟨⟨_, rfl⟩, of_ran (by decide)⟩

theorem witness_OnlyCmpWritesTheFlags :
    (∃ t, exec (.add 0 7) State.reset = .next t ∧ t.status = .running) ∧
      ∃ t, exec (.cmp 0 0) State.reset = .next t ∧ (State.reset.status ≠ .faulted ∧ t.status ≠ .faulted) :=
  ⟨of_ran (by decide), of_ran (by decide)⟩

theorem witness_OutGrowsByPrnAlone :
    (∃ t, step (codeAt 0 [0x47, 0x07]) = .next t ∧ t.out = [244]) ∧
      ∃ t, step (codeAt 0 [0x47, 0x08]) = .next t ∧ t.out = [] :=
  ⟨of_ran (by decide), of_ran (by decide)⟩

theorem witness_ParametersNeverChange : ∃ t, step (withExt (codeAt 0 [0x01])) = .next t ∧ t.status = .halted :=
  of_ran (by decide)

theorem witness_MemReadGivesTheLastMemWrite :
    State.reset.mem.wf = true ∧ ((0 : Int) ≤ 0 ∧ (0 : Int) ≤ 255) ∧ ((0 : Int) ≤ 255 ∧ (255 : Int) ≤ 255) ∧
      ¬ ((0 : Int) ≤ -1 ∧ (-1 : Int) ≤ 255) ∧ ¬ ((0 : Int) ≤ 256 ∧ (256 : Int) ≤ 255) := by decide

/-- PUSH at 0xF1 with SP = 0xF4 stores at 0xF3, where the next instruction is fetched. -/
theorem witness_NextFetchSeesThePushedByte :
    (codeAt 0xF1 []).mem.wf = true ∧
      ∃ t, exec (.push 7) (codeAt 0xF1 []) = .next t ∧
        (t.status = .running ∧ (t.pc.toNat : Int) = (codeAt 0xF1 []).pushSlot ∧ t.fetch = .ok t.latched) :=
  ⟨by decide, of_ran (by decide)⟩

theorem witness_PushThenPopRestoresTheRegisters :
    (codeAt 0 []).mem.wf = true ∧
      ∃ t, exec (.push 7) (codeAt 0 []) = .next t ∧
        (t.status = .running ∧ ((ran (exec (.pop 7) t)).any fun u => decide (u.status = .running)) = true) :=
  ⟨by decide, of_ran (by decide)⟩

theorem witness_RetReturnsBehindTheCall :
    (codeAt 9 []).mem.wf = true ∧ (codeAt 9 []).InRange 2 ∧
      ∃ t, exec (.call 2) (codeAt 9 []) = .next t ∧
        (t.status = .running ∧ ((ran (exec .ret t)).any fun u => decide (u.status = .running)) = true) :=
  ⟨by decide, by decide, of_ran (by decide)⟩

end Sys2Proof.Tests
end

section
/-! The parts of the state an instruction may write, that every instruction and every step of a RUNNING core answers a
next state, and what a loaded image leaves in memory. -/

namespace Sys2Proof.Machine

/-! ## The parts an effect writes -/

/-- An ALU operation that writes a register leaves all but the registers and pc. -/
theorem AluEffect.writes {f : Byte → Byte → Byte} {a b : Byte} {s t : State} (h : AluEffect f a b s t) :
    ∃ g p, t = { s with regs := g, pc := p } := by
  obtain ⟨_, _, _, rfl⟩ := h
  exact ⟨_, _, rfl⟩

/-- Beside the registers and pc, an instruction that raises nothing writes at most one part of the state: STATUS by
HLT, OUT by PRN, memory by PUSH and CALL, fl by CMP. -/
theorem Effect.writes_cases {i : Instr} {s t : State} (h : Effect i s t) :
    (∃ g p, t = { s with regs := g, pc := p }) ∨
      (i = .hlt ∧ t = s.halt) ∨
      (∃ r v p, i = .prn r ∧ t = (s.emit v).setPc p) ∨
      (∃ r g m p, (i = .push r ∨ i = .call r) ∧ t = { s with regs := g, mem := m, pc := p }) ∨
      ∃ a b v p, i = .cmp a b ∧ t = (s.setFl v).setPc p := by
  cases i with
  | hlt => exact .inr (.inl ⟨rfl, h⟩)
  | prn r =>
    obtain ⟨_, _, rfl⟩ := h
    exact .inr (.inr (.inl ⟨r, _, _, rfl, rfl⟩))
  | push r =>
    obtain ⟨_, _, _, rfl⟩ := h
    exact .inr (.inr (.inr (.inl ⟨r, _, _, _, .inl rfl, rfl⟩)))
  | call r =>
    obtain ⟨_, _, rfl⟩ := h
    exact .inr (.inr (.inr (.inl ⟨r, _, _, _, .inr rfl, rfl⟩)))
  | cmp a b =>
    obtain ⟨_, _, _, rfl⟩ := h
    exact .inr (.inr (.inr (.inr ⟨a, b, _, _, rfl, rfl⟩)))
  | ldi r imm => obtain ⟨_, _, rfl⟩ := h; exact .inl ⟨_, _, rfl⟩
  | pop r => obtain ⟨_, _, _, _, _, _, _, rfl⟩ := h; exact .inl ⟨_, _, rfl⟩
  | ret => obtain ⟨_, rfl⟩ := h; exact .inl ⟨_, _, rfl⟩
  | jmp r => obtain ⟨_, rfl⟩ := h; exact .inl ⟨_, _, rfl⟩
  | jeq r => obtain ⟨_, rfl⟩ := h; exact .inl ⟨_, _, rfl⟩
  | jne r => obtain ⟨_, rfl⟩ := h; exact .inl ⟨_, _, rfl⟩
  | add a b => exact .inl (AluEffect.writes h)
  | sub a b => exact .inl (AluEffect.writes h)
  | mul a b => exact .inl (AluEffect.writes h)
  | and a b => exact .inl h.2.writes
  | or a b => exact .inl h.2.writes
  | xor a b => exact .inl h.2.writes
  | shl a b => exact .inl h.2.writes
  | shr a b => exact .inl h.2.writes

/-- An effect leaves memory, but for that of PUSH and CALL (10_state.md R21). -/
theorem Effect.mem_cases {i : Instr} {s t : State} (h : Effect i s t) :
    t.mem = s.mem ∨ ∃ r, i = .push r ∨ i = .call r := by
  rcases h.writes_cases with ⟨_, _, rfl⟩ | ⟨-, rfl⟩ | ⟨_, _, _, -, rfl⟩ | ⟨r, _, _, _, hi, -⟩ | ⟨_, _, _, _, -, rfl⟩
  · exact .inl rfl
  · exact .inl rfl
  · exact .inl rfl
  · exact .inr ⟨r, hi⟩
  · exact .inl rfl

/-- An effect leaves fl, but for that of CMP (10_state.md R30). -/
theorem Effect.fl_cases {i : Instr} {s t : State} (h : Effect i s t) :
    t.fl = s.fl ∨ ∃ a b, i = .cmp a b := by
  rcases h.writes_cases with ⟨_, _, rfl⟩ | ⟨-, rfl⟩ | ⟨_, _, _, -, rfl⟩ | ⟨_, _, _, _, -, rfl⟩ | ⟨a, b, _, _, hi, -⟩
  · exact .inl rfl
  · exact .inl rfl
  · exact .inl rfl
  · exact .inl rfl
  · exact .inr ⟨a, b, hi⟩

/-- A step changes memory only when the instruction at pc is a PUSH or a CALL: every raise leaves it. -/
theorem step_mem_cases {s t : State} (h : step s = .next t) :
    t.mem = s.mem ∨ ∃ r, s.instrAtPc = .instr (.push r) ∨ s.instrAtPc = .instr (.call r) := by
  obtain ⟨-, ⟨-, rfl⟩ | ⟨-, -, -, rfl⟩ | ⟨-, -, -, rfl⟩ | ⟨-, i, hi, ⟨_, _, -, rfl⟩ | he⟩⟩ := step_cases h
  · exact .inl rfl
  · exact .inl rfl
  · exact .inl rfl
  · exact .inl rfl
  · rcases he.mem_cases with hm | ⟨r, rfl | rfl⟩
    · exact .inl hm
    · exact .inr ⟨r, .inl hi⟩
    · exact .inr ⟨r, .inr hi⟩

/-! ## A next state there always is -/

theorem State.finish_next (s : State) (r : Res State) : ∃ t, s.finish r = .next t := by
  cases r with
  | ok p => exact ⟨_, State.finish_ok s p⟩
  | raise c n => exact ⟨_, State.finish_raise s c n⟩

theorem runHandler_next (op : Byte) (h : State → Res State) (s : State) : ∃ t, runHandler op h s = .next t :=
  State.finish_next s _

theorem runExt_next (op : Byte) (f : Byte → Byte → Byte) (a b : Byte) (s : State) :
    ∃ t, runExt op f a b s = .next t := by
  unfold runExt
  split
  · exact runHandler_next _ _ s
  · exact State.finish_next s _

/-- Every instruction answers a next state: a fault of the core is one (60_exceptions.md R190). -/
theorem exec_next (i : Instr) (s : State) : ∃ t, exec i s = .next t := by
  cases i with
  | hlt => exact ⟨_, rfl⟩
  | and a b => exact runExt_next _ _ a b s
  | or a b => exact runExt_next _ _ a b s
  | xor a b => exact runExt_next _ _ a b s
  | shl a b => exact runExt_next _ _ a b s
  | shr a b => exact runExt_next _ _ a b s
  | _ => exact runHandler_next _ _ s

/-- A RUNNING core takes a step (40_cycle.md R100). -/
theorem step_next {s : State} (h : s.status = .running) : ∃ t, step s = .next t := by
  rw [step_running h]
  by_cases hr : s.InRange 2
  · rw [if_pos hr]
    cases hi : s.instrAtPc with
    | instr i =>
      obtain ⟨p, hp⟩ := exec_next i s.latched
      exact ⟨_, congrArg s.commit hp⟩
    | reject why => cases why <;> exact ⟨_, rfl⟩
  · exact ⟨_, if_neg hr⟩

/-! ## CMP -/

/-- CMP of two good registers with an advance in range writes all of fl (42_alu.md R164). -/
theorem exec_cmp_ok (a b : Byte) {s : State} (ha : s.opa.toNat < 8) (hb : s.opb.toNat < 8) (hr : s.InRange 3) :
    exec (.cmp a b) s =
      .next ((s.setFl (cmpFlags (s.reg ⟨s.opa.toNat, ha⟩) (s.reg ⟨s.opb.toNat, hb⟩))).setPc (s.pc + 3#8)) := by
  have hp : cmpHandler s = .ok (s.setFl (cmpFlags (s.reg ⟨s.opa.toNat, ha⟩) (s.reg ⟨s.opb.toNat, hb⟩))) := by
    simp [cmpHandler, checkRegs_ok ha hb]
  exact runHandler_of_ok hp (State.advance_inRange setsPcBit_cmp (by rw [operandCount_cmp]; exact hr))

/-- CMP overwrites all of fl, so what fl held before makes no difference to the state it leaves. -/
theorem Effect.exec_cmp_any_fl {a b : Byte} {s t : State} (h : Effect (.cmp a b) s t) (v : Byte) :
    exec (.cmp a b) { s with fl := v } = .next t := by
  obtain ⟨ha, hb, hr, rfl⟩ := h
  exact exec_cmp_ok (s := { s with fl := v }) a b ha hb hr

theorem Effect.cmp_fl {a b : Byte} {s t : State} (h : Effect (.cmp a b) s t) :
    t.fl = 1#8 ∨ t.fl = 2#8 ∨ t.fl = 4#8 := by
  obtain ⟨_, _, _, rfl⟩ := h
  exact cmpFlags_cases _ _

/-! ## Loading an image -/

theorem loadImage_eq_some {cfg : Config} {image : List Byte} {s : State} (h : loadImage cfg image = some s) :
    image.length ≤ memSize ∧ s = { State.reset with mem := placeImage 0 image State.reset.mem, cfg := cfg } := by
  unfold loadImage at h
  split at h
  · exact ⟨‹_›, (Option.some.inj h).symm⟩
  · cases h

/-- Placing an image leaves the addresses before and behind it. -/
theorem placeImage_read_outside {image : List Byte} {a k : Nat} {m : Memory} (h : k < a ∨ a + image.length ≤ k) :
    (placeImage a image m).read k = m.read k := by
  induction image generalizing a m with
  | nil => rfl
  | cons b bs ih =>
    rw [List.length_cons] at h
    rw [placeImage, ih (by omega), Memory.read_write_ne m b (by omega)]

/-- Byte `k` of an image placed at `a` reads back at `a + k` (70_reset_and_hazards.md R223). -/
theorem placeImage_read_inside {image : List Byte} {a k : Nat} {m : Memory} (hm : m.wf = true)
    (ha : a + image.length ≤ memSize) (hk : k < image.length) :
    (placeImage a image m).read (a + k) = image[k] := by
  induction image generalizing a k m with
  | nil => cases hk
  | cons b bs ih =>
    rw [List.length_cons] at ha hk
    cases k with
    | zero =>
      have ho : (placeImage (a + 1) bs (m.write a b)).read a = (m.write a b).read a :=
        placeImage_read_outside (.inl (Nat.lt_succ_self a))
      exact ho.trans (Memory.read_write_self hm a b)
    | succ k =>
      have hw : (m.write a b).wf = true := Memory.write_wf b hm (by omega)
      have hr := ih (a := a + 1) (k := k) hw (by omega) (by omega)
      rwa [Nat.add_right_comm] at hr

end Sys2Proof.Machine
end

section
/-! The statements of 10_state.md: when a step happens, what writes memory, and what writes fl. -/

namespace Sys2Proof.Machine

/-- Settles O10: `step_cases` gives STATUS of a core that stepped, and `step_next` a step of a RUNNING one. -/
theorem stepsHappenExactlyWhileRunning : Obligations.StepsHappenExactlyWhileRunning := by
  refine ⟨fun s => ?_, fun s => ⟨fun ⟨_, h⟩ => (step_cases h).1, step_next⟩, fun cfg image s h => ?_⟩
  · cases s.status with
    | running => exact .inl rfl
    | halted => exact .inr (.inl rfl)
    | faulted => exact .inr (.inr rfl)
  · obtain ⟨-, rfl⟩ := loadImage_eq_some h
    rfl

/-- Settles O40: the image by induction over its bytes, and a step by the parts its instruction's effect writes. -/
theorem onlyPushAndCallWriteMemory : Obligations.OnlyPushAndCallWriteMemory := by
  refine ⟨fun _ => rfl, fun cfg image s h k hk => ?_, fun s t h hne => (step_mem_cases h).resolve_left hne⟩
  obtain ⟨hlen, rfl⟩ := loadImage_eq_some h
  have hr := placeImage_read_inside (a := 0) State.reset_mem_wf (by omega) hk
  rwa [Nat.zero_add] at hr

/-- Settles O41: a raise leaves fl, and so does every effect but CMP's, which does not read it. -/
theorem onlyCmpWritesTheFlags : Obligations.OnlyCmpWritesTheFlags := by
  refine ⟨fun i s t h hi => ?_, fun a b v s t h _ ht => ?_⟩
  · rcases exec_cases h with ⟨_, _, -, rfl⟩ | he
    · rfl
    · exact he.fl_cases.resolve_right fun ⟨a, b, hc⟩ => hi a b hc
  · rcases exec_cases h with ⟨_, _, -, rfl⟩ | he
    · exact absurd rfl ht
    · exact ⟨he.cmp_fl, he.exec_cmp_any_fl v⟩

end Sys2Proof.Machine
end

section
/-! What a step that raised nothing did, and the latches and the pc an effect leaves. -/

namespace Sys2Proof.Machine

/-- A step that raised nothing had the effect of the instruction at pc on the latched state: every other way a step
ends is a raise (40_cycle.md R100). -/
theorem step_effect_of_not_faulted {s t : State} (h : step s = .next t) (ht : t.status ≠ .faulted) :
    ∃ i, s.instrAtPc = .instr i ∧ Effect i s.latched t := by
  obtain ⟨-, ⟨-, rfl⟩ | ⟨-, -, -, rfl⟩ | ⟨-, -, -, rfl⟩ | ⟨-, i, hi, ⟨_, _, -, rfl⟩ | he⟩⟩ := step_cases h
  · exact absurd rfl ht
  · exact absurd rfl ht
  · exact absurd rfl ht
  · exact absurd rfl ht
  · exact ⟨i, hi, he⟩

/-- Only Fetch writes the latches (40_cycle.md R101): an effect leaves them. -/
theorem Effect.latches {i : Instr} {s t : State} (h : Effect i s t) :
    t.ir = s.ir ∧ t.opa = s.opa ∧ t.opb = s.opb := by
  rcases h.writes_cases with ⟨_, _, rfl⟩ | ⟨-, rfl⟩ | ⟨_, _, _, -, rfl⟩ | ⟨_, _, _, _, -, rfl⟩ | ⟨_, _, _, _, -, rfl⟩
  · exact ⟨rfl, rfl, rfl⟩
  · exact ⟨rfl, rfl, rfl⟩
  · exact ⟨rfl, rfl, rfl⟩
  · exact ⟨rfl, rfl, rfl⟩
  · exact ⟨rfl, rfl, rfl⟩

/-- An ALU operation that writes a register advances pc by three bytes. -/
theorem AluEffect.pc {f : Byte → Byte → Byte} {a b : Byte} {s t : State} (h : AluEffect f a b s t) :
    t.pc = s.pc + 3#8 := by
  obtain ⟨_, _, _, rfl⟩ := h
  rfl

theorem pc_advanced_of_operandCount {op p q : Byte} {n : Nat} (hn : operandCount op = n)
    (hq : q = p + BitVec.ofNat 8 (n + 1)) : q = p + BitVec.ofNat 8 (operandCount op + 1) := by
  rw [hn]
  exact hq

/-- An effect advances pc by the instruction's length, but for that of HLT and of the instructions with sets-PC bit 1
(40_cycle.md R109). -/
theorem Effect.pc_cases {i : Instr} {s t : State} (h : Effect i s t) :
    i = .hlt ∨ setsPcBit i.opcode = true ∨ t.pc = s.pc + BitVec.ofNat 8 (operandCount i.opcode + 1) := by
  cases i with
  | hlt => exact .inl rfl
  | call r => exact .inr (.inl setsPcBit_call)
  | ret => exact .inr (.inl setsPcBit_ret)
  | jmp r => exact .inr (.inl setsPcBit_jmp)
  | jeq r => exact .inr (.inl setsPcBit_jeq)
  | jne r => exact .inr (.inl setsPcBit_jne)
  | ldi r imm => obtain ⟨_, _, rfl⟩ := h; exact .inr (.inr (pc_advanced_of_operandCount operandCount_ldi rfl))
  | prn r => obtain ⟨_, _, rfl⟩ := h; exact .inr (.inr (pc_advanced_of_operandCount operandCount_prn rfl))
  | push r => obtain ⟨_, _, _, rfl⟩ := h; exact .inr (.inr (pc_advanced_of_operandCount operandCount_push rfl))
  | pop r => obtain ⟨_, _, _, _, _, _, _, rfl⟩ := h; exact .inr (.inr (pc_advanced_of_operandCount operandCount_pop rfl))
  | cmp a b => obtain ⟨_, _, _, rfl⟩ := h; exact .inr (.inr (pc_advanced_of_operandCount operandCount_cmp rfl))
  | add a b => exact .inr (.inr (pc_advanced_of_operandCount operandCount_add (AluEffect.pc h)))
  | sub a b => exact .inr (.inr (pc_advanced_of_operandCount operandCount_sub (AluEffect.pc h)))
  | mul a b => exact .inr (.inr (pc_advanced_of_operandCount operandCount_mul (AluEffect.pc h)))
  | and a b => exact .inr (.inr (pc_advanced_of_operandCount operandCount_and h.2.pc))
  | or a b => exact .inr (.inr (pc_advanced_of_operandCount operandCount_or h.2.pc))
  | xor a b => exact .inr (.inr (pc_advanced_of_operandCount operandCount_xor h.2.pc))
  | shl a b => exact .inr (.inr (pc_advanced_of_operandCount operandCount_shl h.2.pc))
  | shr a b => exact .inr (.inr (pc_advanced_of_operandCount operandCount_shr h.2.pc))

end Sys2Proof.Machine
end

section
/-! The statements of 40_cycle.md: what Fetch latches, and who writes pc. -/

namespace Sys2Proof.Machine

/-- Settles O12: a step that raised nothing had an effect on the latched state, and no effect writes the latches. -/
theorem fetchLatchesThreeBytes : Obligations.FetchLatchesThreeBytes := by
  intro s t h ht
  obtain ⟨i, -, he⟩ := step_effect_of_not_faulted h ht
  obtain ⟨hir, hopa, hopb⟩ := he.latches
  have h0 : s.byteAt 0#8 = s.mem.read s.pc.toNat := by rw [State.byteAt, BitVec.add_zero]
  exact ⟨hir.trans h0, hopa, hopb⟩

/-- Settles O13: the first clause by the effect of the instruction at pc, whose opcode is the byte there; a core left
RUNNING did not meet HLT. The second is `runHandler` with an advance that leaves its state. -/
theorem pcAdvancesUnlessTheInstructionSetsIt : Obligations.PcAdvancesUnlessTheInstructionSetsIt := by
  refine ⟨fun s t h ht hs => ?_, fun op h s p hs hp => runHandler_of_ok hp (State.advance_setsPc hs p)⟩
  obtain ⟨i, hi, he⟩ := step_effect_of_not_faulted h (by rw [ht]; decide)
  obtain ⟨hop, -, -⟩ := State.instrAtPc_eq_instr hi
  rw [← hop] at hs ⊢
  rcases he.pc_cases with rfl | hset | hpc
  · rw [show t = s.latched.halt from he] at ht
    cases ht
  · rw [hs] at hset
    cases hset
  · exact hpc

end Sys2Proof.Machine
end

section
/-! LDI and PRN: what the handler answers on a good and on a bad register, and the instruction built from it. -/

namespace Sys2Proof.Machine

/-! ## Raises and the host's lines -/

theorem raises_raise (s : State) (c : FaultCause) (n : Int) : Raises (.next (s.raise c n)) c n :=
  ⟨_, rfl, rfl, rfl, rfl⟩

/-- An emitted value is one more decimal line of the host's (70_reset_and_hazards.md R224). -/
theorem State.emit_hostLines (s : State) (v : Byte) :
    (s.emit v).hostLines = s.hostLines ++ decimalChars v ++ lineEnd := by
  simp [State.hostLines]

/-! ## LDI -/

theorem ldiHandler_ok {r : Byte} (h : r.toNat < 8) (imm : Byte) (s : State) :
    ldiHandler r imm s = .ok (s.setReg ⟨r.toNat, h⟩ imm) := by
  simp [ldiHandler, checkReg_ok h]

theorem ldiHandler_raise {r : Byte} (h : 8 ≤ r.toNat) (imm : Byte) (s : State) :
    ldiHandler r imm s = .raise .regOutOfBounds (byteInt r) := by
  simp [ldiHandler, checkReg_raise h]

/-- LDI of a good register with an advance in range writes that register and pc (41_non_alu.md R131). -/
theorem exec_ldi_ok {r : Byte} (h : r.toNat < 8) (imm : Byte) {s : State} (hr : s.InRange 3) :
    exec (.ldi r imm) s = .next ((s.setReg ⟨r.toNat, h⟩ imm).setPc (s.pc + 3#8)) :=
  runHandler_of_ok (ldiHandler_ok h imm s) (State.advance_inRange setsPcBit_ldi (by rw [operandCount_ldi]; exact hr))

theorem exec_ldi_raise {r : Byte} (h : 8 ≤ r.toNat) (imm : Byte) (s : State) :
    exec (.ldi r imm) s = .next (s.raise .regOutOfBounds (byteInt r)) :=
  runHandler_of_raise (ldiHandler_raise h imm s)

/-- LDI of a good register whose advance leaves memory under FAULT raises the address it would go to (40_cycle.md
R110). -/
theorem exec_ldi_advance_raise {r : Byte} (h : r.toNat < 8) (imm : Byte) {s : State} (hf : s.cfg.oobPolicy = .fault)
    (hlt : 255 < s.pc.toNat + 3) :
    exec (.ldi r imm) s = .next (s.raise .memOutOfBounds (byteInt s.pc + 3)) := by
  have ha := State.advance_raise setsPcBit_ldi (p := s.setReg ⟨r.toNat, h⟩ imm) hf (by rw [operandCount_ldi]; exact hlt)
  rw [operandCount_ldi, State.setReg_pc, add_assoc] at ha
  exact runHandler_of_advance_raise (ldiHandler_ok h imm s) ha

/-! ## PRN -/

theorem prnHandler_ok {r : Byte} (h : r.toNat < 8) (s : State) :
    prnHandler r s = .ok (s.emit (s.reg ⟨r.toNat, h⟩)) := by
  simp [prnHandler, checkReg_ok h]

theorem prnHandler_raise {r : Byte} (h : 8 ≤ r.toNat) (s : State) :
    prnHandler r s = .raise .regOutOfBounds (byteInt r) := by
  simp [prnHandler, checkReg_raise h]

/-- PRN of a good register with an advance in range emits that register and writes pc (41_non_alu.md R132). -/
theorem exec_prn_ok {r : Byte} (h : r.toNat < 8) {s : State} (hr : s.InRange 2) :
    exec (.prn r) s = .next ((s.emit (s.reg ⟨r.toNat, h⟩)).setPc (s.pc + 2#8)) :=
  runHandler_of_ok (prnHandler_ok h s) (State.advance_inRange setsPcBit_prn (by rw [operandCount_prn]; exact hr))

theorem exec_prn_raise {r : Byte} (h : 8 ≤ r.toNat) (s : State) :
    exec (.prn r) s = .next (s.raise .regOutOfBounds (byteInt r)) :=
  runHandler_of_raise (prnHandler_raise h s)

end Sys2Proof.Machine
end

section
/-! The statements of 41_non_alu.md about LDI and PRN. -/

namespace Sys2Proof.Machine

/-- Settles O25: a good register with the advance in range, a bad register, and a good register whose advance leaves
memory. -/
theorem ldiLoadsItsImmediate : Obligations.LdiLoadsItsImmediate := by
  refine fun s r imm => ⟨rfl, fun h hr => exec_ldi_ok h imm hr, fun h => ?_, fun h hf hpc => ?_⟩
  · rw [exec_ldi_raise h]
    exact raises_raise s _ _
  · have hlt : 255 < s.pc.toNat + 3 := by rw [hpc]; decide
    have hinfo : byteInt s.pc + 3 = 256 := by rw [hpc]; rfl
    rw [exec_ldi_advance_raise h imm hf hlt, hinfo]
    exact raises_raise s _ _

/-- Settles O26: a good register is emitted and read by the host as one more line; a bad one raises, and a raise
leaves OUT. -/
theorem prnEmitsTheRegister : Obligations.PrnEmitsTheRegister := by
  refine fun s r => ⟨rfl, fun h hr => ⟨_, exec_prn_ok h hr, rfl, s.emit_hostLines _⟩, fun h => ?_⟩
  rw [exec_prn_raise h]
  refine ⟨raises_raise s _ _, fun t ht => ?_⟩
  cases ht
  rfl

end Sys2Proof.Machine
end

section
/-! The decoder and the encoder as inverses of each other: where Classify finds an instruction's row, what the row
builds of the instruction's bytes, and that no two instructions of a core share their bytes. -/

namespace Sys2Proof

/-- A core that has an instruction of the extension has the extension (42_alu.md R170). -/
theorem aluLogicExt_of_wf {cfg : Config} {i : Instr} (h : i.wf cfg = true) (hx : i.needsLogicExt = true) :
    cfg.aluLogicExt = true := by
  simpa [Instr.wf, hx] using h

/-- Classify finds a row for the opcode of a well-formed instruction, and that row builds the instruction of its own
operand bytes, whatever stands in the operands it does not use (30_encoding.md R75, R77). -/
theorem classify_opcode {cfg : Config} {i : Instr} (h : i.wf cfg = true) :
    ∃ r, classify cfg i.opcode = .row r ∧
      ((operandCount i.opcode = 0 ∧ encode i = [i.opcode] ∧ ∀ opa opb, r.build opa opb = i) ∨
        (∃ a, operandCount i.opcode = 1 ∧ encode i = [i.opcode, a] ∧ ∀ opb, r.build a opb = i) ∨
        ∃ a b, operandCount i.opcode = 2 ∧ encode i = [i.opcode, a, b] ∧ r.build a b = i) := by
  cases i with
  | hlt => exact ⟨_, classify_hlt cfg, .inl ⟨operandCount_hlt, rfl, fun _ _ => rfl⟩⟩
  | ldi r imm => exact ⟨_, classify_ldi cfg, .inr (.inr ⟨r, imm, operandCount_ldi, rfl, rfl⟩)⟩
  | prn r => exact ⟨_, classify_prn cfg, .inr (.inl ⟨r, operandCount_prn, rfl, fun _ => rfl⟩)⟩
  | push r => exact ⟨_, classify_push cfg, .inr (.inl ⟨r, operandCount_push, rfl, fun _ => rfl⟩)⟩
  | pop r => exact ⟨_, classify_pop cfg, .inr (.inl ⟨r, operandCount_pop, rfl, fun _ => rfl⟩)⟩
  | call r => exact ⟨_, classify_call cfg, .inr (.inl ⟨r, operandCount_call, rfl, fun _ => rfl⟩)⟩
  | ret => exact ⟨_, classify_ret cfg, .inl ⟨operandCount_ret, rfl, fun _ _ => rfl⟩⟩
  | jmp r => exact ⟨_, classify_jmp cfg, .inr (.inl ⟨r, operandCount_jmp, rfl, fun _ => rfl⟩)⟩
  | jeq r => exact ⟨_, classify_jeq cfg, .inr (.inl ⟨r, operandCount_jeq, rfl, fun _ => rfl⟩)⟩
  | jne r => exact ⟨_, classify_jne cfg, .inr (.inl ⟨r, operandCount_jne, rfl, fun _ => rfl⟩)⟩
  | add a b => exact ⟨_, classify_add cfg, .inr (.inr ⟨a, b, operandCount_add, rfl, rfl⟩)⟩
  | sub a b => exact ⟨_, classify_sub cfg, .inr (.inr ⟨a, b, operandCount_sub, rfl, rfl⟩)⟩
  | mul a b => exact ⟨_, classify_mul cfg, .inr (.inr ⟨a, b, operandCount_mul, rfl, rfl⟩)⟩
  | cmp a b => exact ⟨_, classify_cmp cfg, .inr (.inr ⟨a, b, operandCount_cmp, rfl, rfl⟩)⟩
  | and a b => exact ⟨_, classify_and cfg (aluLogicExt_of_wf h rfl), .inr (.inr ⟨a, b, operandCount_and, rfl, rfl⟩)⟩
  | or a b => exact ⟨_, classify_or cfg (aluLogicExt_of_wf h rfl), .inr (.inr ⟨a, b, operandCount_or, rfl, rfl⟩)⟩
  | xor a b => exact ⟨_, classify_xor cfg (aluLogicExt_of_wf h rfl), .inr (.inr ⟨a, b, operandCount_xor, rfl, rfl⟩)⟩
  | shl a b => exact ⟨_, classify_shl cfg (aluLogicExt_of_wf h rfl), .inr (.inr ⟨a, b, operandCount_shl, rfl, rfl⟩)⟩
  | shr a b => exact ⟨_, classify_shr cfg (aluLogicExt_of_wf h rfl), .inr (.inr ⟨a, b, operandCount_shr, rfl, rfl⟩)⟩

/-- The bytes of a well-formed instruction decode to it, whatever follows them. -/
theorem decodeBytes_encode {cfg : Config} {i : Instr} (h : i.wf cfg = true) (rest : List Byte) :
    decodeBytes cfg (encode i ++ rest) = .instr i rest := by
  obtain ⟨r, hc, ⟨hk, he, hb⟩ | ⟨a, hk, he, hb⟩ | ⟨a, b, hk, he, hb⟩⟩ := classify_opcode h
  · simp [he, decodeBytes, hc, hk, hb]
  · simp [he, decodeBytes, hc, hk, hb]
  · simp [he, decodeBytes, hc, hk, hb]

/-- Three bytes that begin with those of a well-formed instruction decode to it (40_cycle.md R101, R103). -/
theorem decode_of_encode_append {cfg : Config} {i : Instr} {rest tail : List Byte} {ir opa opb : Byte}
    (h : i.wf cfg = true) (hbytes : encode i ++ rest = ir :: opa :: opb :: tail) :
    decode cfg ir opa opb = .instr i := by
  obtain ⟨r, hc, ⟨-, he, hb⟩ | ⟨a, -, he, hb⟩ | ⟨a, b, -, he, hb⟩⟩ := classify_opcode h
  · simp only [he, List.cons_append, List.cons.injEq] at hbytes
    obtain ⟨rfl, -⟩ := hbytes
    simp [decode, hc, hb]
  · simp only [he, List.cons_append, List.cons.injEq] at hbytes
    obtain ⟨rfl, rfl, -⟩ := hbytes
    simp [decode, hc, hb]
  · simp only [he, List.cons_append, List.cons.injEq] at hbytes
    obtain ⟨rfl, rfl, rfl, -⟩ := hbytes
    simp [decode, hc, hb]

/-- Two instructions of one core with the same bytes are the same. -/
theorem encode_injective_of_wf {cfg : Config} {i j : Instr} (hi : i.wf cfg = true) (hj : j.wf cfg = true)
    (h : encode i = encode j) : i = j := by
  have hd := decodeBytes_encode hi []
  rw [h, decodeBytes_encode hj []] at hd
  exact (DecodedBytes.instr.inj hd).1.symm

/-- Operand bytes that agree as far as bits 7:6 say make the same instruction (30_encoding.md R77). -/
theorem decode_congr (cfg : Config) {ir a b a' b' : Byte}
    (h : [ir, a, b].take (operandCount ir + 1) = [ir, a', b'].take (operandCount ir + 1)) :
    decode cfg ir a b = decode cfg ir a' b' := by
  unfold decode
  cases hc : classify cfg ir with
  | reject why => rfl
  | row r =>
    obtain ⟨-, hwf, he⟩ := Machine.classify_row_build hc a b
    obtain ⟨-, hwf', he'⟩ := Machine.classify_row_build hc a' b'
    exact congrArg Decoded.instr (encode_injective_of_wf hwf hwf' (by rw [he, he', h]))

/-- Bytes that decode to an instruction begin with the byte of a row, followed by as many operand bytes as bits 7:6 say,
and the row builds the instruction of them. -/
theorem decodeBytes_eq_instr {cfg : Config} {bytes rest : List Byte} {i : Instr}
    (h : decodeBytes cfg bytes = .instr i rest) :
    ∃ op r opa opb, classify cfg op = .row r ∧ i = r.build opa opb ∧
      bytes = [op, opa, opb].take (operandCount op + 1) ++ rest := by
  cases bytes with
  | nil => cases h
  | cons op bs =>
    unfold decodeBytes at h
    cases hc : classify cfg op with
    | reject why => simp [hc] at h
    | row r =>
      simp only [hc] at h
      split at h
      · next hk => cases h; exact ⟨op, r, 0, 0, hc, rfl, by simp [hk]⟩
      · next opa _ hk => cases h; exact ⟨op, r, opa, 0, hc, rfl, by simp [hk]⟩
      · next opa opb _ hk => cases h; exact ⟨op, r, opa, opb, hc, rfl, by simp [hk]⟩
      · cases h

/-- No instruction has more than two operand bytes (30_encoding.md R71, R78). -/
theorem operandCount_opcode_le (i : Instr) : operandCount i.opcode ≤ 2 := by
  cases i <;> simp [Instr.opcode]

end Sys2Proof
end

section
/-! The statements of 30_encoding.md. -/

namespace Sys2Proof.Machine

/-- Settles O5: the row Classify finds for an instruction's opcode builds the instruction of its own operand bytes. -/
theorem decodeOfEncodeIsIdentity : Obligations.DecodeOfEncodeIsIdentity :=
  fun _ _ rest h => ⟨decodeBytes_encode h rest, fun _ _ _ _ => decode_of_encode_append h⟩

/-- Settles O6: what a row builds is well-formed and has the row's byte and the operand bytes as its encoding. -/
theorem encodeOfDecodeIsIdentity : Obligations.EncodeOfDecodeIsIdentity := by
  intro cfg bytes rest i h
  obtain ⟨op, r, opa, opb, hc, rfl, rfl⟩ := decodeBytes_eq_instr h
  obtain ⟨-, hwf, he⟩ := classify_row_build hc opa opb
  exact ⟨hwf, by rw [he]⟩

/-- Settles O9: operand bytes beyond the count are no part of the encoding, which determines the instruction; and the
fetch does not look at the count. -/
theorem unusedOperandBytesAreIgnored : Obligations.UnusedOperandBytesAreIgnored := by
  refine ⟨fun cfg ir a b a' b' h => decode_congr cfg ?_, fun cfg ir a b b' h => decode_congr cfg ?_,
    fun s hs _ hr => ?_⟩
  · rw [h]; rfl
  · rw [h]; rfl
  · rw [step_running hs, if_neg hr]

/-- Settles O7: the bytes are the opcodes of the rows Classify finds, and SHR's is in the extension's table alone. -/
theorem wordsDecodeAsTheOpcodeMapSays : Obligations.WordsDecodeAsTheOpcodeMapSays := by
  unfold Obligations.WordsDecodeAsTheOpcodeMapSays
  decide

/-- Settles O8: the two bits of each instruction's opcode. -/
theorem opcodeBitsMarkTheFamilies : Obligations.OpcodeBitsMarkTheFamilies := by
  intro i
  cases i <;> simp [Instr.opcode]

end Sys2Proof.Machine
end

section
/-! A step as one raise or one effect: the conditions of every raise of a step, why its record is one the fault table
allows, and the parts of the state a step keeps. -/

namespace Sys2Proof.Machine

/-! ## The bytes at pc and the step made of them -/

theorem State.byteAt_zero (s : State) : s.byteAt 0#8 = s.mem.read s.pc.toNat := by
  rw [State.byteAt, BitVec.add_zero]

theorem fault_of_not_inRange {s : State} {n : Nat} (h : ¬ s.InRange n) : s.cfg.oobPolicy = .fault := by
  cases hc : s.cfg.oobPolicy
  · rfl
  · exact absurd (.inl hc) h

theorem State.not_inRange {s : State} {n : Nat} (hf : s.cfg.oobPolicy = .fault) (hn : 255 < s.pc.toNat + n) :
    ¬ s.InRange n := by
  rintro (hw | hle)
  · rw [hf] at hw
    cases hw
  · omega

theorem State.InRange.mono {s : State} {m n : Nat} (h : s.InRange n) (hmn : m ≤ n) : s.InRange m :=
  h.imp id (by omega)

/-- The instruction at pc is the one its row builds of the two bytes behind it. -/
theorem State.instrAtPc_of_row {s : State} {r : OpRow} (h : classify s.cfg (s.byteAt 0#8) = .row r) :
    s.instrAtPc = .instr (r.build (s.byteAt 1#8) (s.byteAt 2#8)) := by
  simp [State.instrAtPc, decode, h]

theorem State.instrAtPc_of_reject {s : State} {why : DecodeReject}
    (h : classify s.cfg (s.byteAt 0#8) = .reject why) : s.instrAtPc = .reject why := by
  simp [State.instrAtPc, decode, h]

theorem step_of_not_inRange {s : State} (hs : s.status = .running) (hr : ¬ s.InRange 2) :
    step s = .next (s.raise .memOutOfBounds 256) := by
  rw [step_running hs, if_neg hr]

theorem step_of_instr {s : State} {i : Instr} (hs : s.status = .running) (hr : s.InRange 2)
    (hi : s.instrAtPc = .instr i) : step s = s.commit (exec i s.latched) := by
  rw [step_running hs, if_pos hr, hi]

/-- An instruction that raises on the latched state makes the step raise the same on the state before. -/
theorem step_of_exec_raise {s : State} {i : Instr} {c : FaultCause} {n : Int} (hs : s.status = .running)
    (hr : s.InRange 2) (hi : s.instrAtPc = .instr i) (he : exec i s.latched = .next (s.latched.raise c n)) :
    step s = .next (s.raise c n) := by
  rw [step_of_instr hs hr hi, he, State.commit_latched_raise]

theorem step_of_exec_next {s t : State} {i : Instr} (hs : s.status = .running) (hr : s.InRange 2)
    (hi : s.instrAtPc = .instr i) (he : exec i s.latched = .next t) (ht : t.status ≠ .faulted) : step s = .next t := by
  rw [step_of_instr hs hr hi, he, State.commit_of_not_faulted s ht]

/-! ## What a step raises -/

/-- The conditions under which a step raises cause `c` with info `n`: its fetch leaves memory, its byte is in no table,
or its instruction raises (40_cycle.md R102, R104, R105, R108). -/
def StepRaisedBy (s : State) (c : FaultCause) (n : Int) : Prop :=
  (¬ s.InRange 2 ∧ c = .memOutOfBounds ∧ n = 256) ∨
    (aluBit (s.byteAt 0#8) = true ∧ lookupRow (aluTable s.cfg) (s.byteAt 0#8) = none ∧
      c = .unmappedAluOp ∧ n = byteInt (s.byteAt 0#8)) ∨
    (aluBit (s.byteAt 0#8) = false ∧ lookupRow nonAluTable (s.byteAt 0#8) = none ∧
      c = .decodeFault ∧ n = byteInt (s.byteAt 0#8)) ∨
    (s.InRange 2 ∧ ∃ i, s.instrAtPc = .instr i ∧ RaisedBy i s.latched c n)

/-- `step_cases` with its raises in one: a step raises, or has the effect of the instruction at pc. -/
theorem step_raises_or_effect {s t : State} (h : step s = .next t) :
    (∃ c n, StepRaisedBy s c n ∧ t = s.raise c n) ∨ ∃ i, s.instrAtPc = .instr i ∧ Effect i s.latched t := by
  obtain ⟨-, ⟨hr, ht⟩ | ⟨-, ha, hl, ht⟩ | ⟨-, ha, hl, ht⟩ | ⟨hr, i, hi, ⟨c, n, hc, ht⟩ | he⟩⟩ := step_cases h
  · exact .inl ⟨_, _, .inl ⟨hr, rfl, rfl⟩, ht⟩
  · exact .inl ⟨_, _, .inr (.inl ⟨ha, hl, rfl, rfl⟩), ht⟩
  · exact .inl ⟨_, _, .inr (.inr (.inl ⟨ha, hl, rfl, rfl⟩)), ht⟩
  · exact .inl ⟨c, n, .inr (.inr (.inr ⟨hr, i, hi, hc⟩)), ht⟩
  · exact .inr ⟨i, hi, he⟩

/-- No effect leaves a core FAULTED that was not. -/
theorem Effect.not_faulted {i : Instr} {s t : State} (h : Effect i s t) (hs : s.status ≠ .faulted) :
    t.status ≠ .faulted := by
  rcases h.status with ht | ⟨-, ht⟩
  · rwa [ht]
  · rw [ht]
    decide

/-- A step to a FAULTED core raised. -/
theorem step_raises_of_faulted {s t : State} (h : step s = .next t) (ht : t.status = .faulted) :
    ∃ c n, StepRaisedBy s c n ∧ t = s.raise c n := by
  refine (step_raises_or_effect h).resolve_right fun ⟨i, _, he⟩ => he.not_faulted ?_ ht
  rw [State.latched_status, (step_cases h).1]
  decide

/-! ## The record of a raise -/

/-- What an instruction at pc raises is what 60_exceptions.md R192 allows its byte: the extension's operations are no
instructions of a core without it, and the address behind a three-byte instruction is 256 when it is none of memory. -/
theorem RaisedBy.legal {i : Instr} {s : State} {c : FaultCause} {n : Int} (h : RaisedBy i s.latched c n)
    (hi : s.instrAtPc = .instr i) (hr : s.InRange 2) : (s.raise c n).faultRec.legal s.cfg = true := by
  obtain ⟨hop, hwf, -⟩ := State.instrAtPc_eq_instr hi
  rw [State.raise_faultRec, ← State.byteAt_zero, ← hop]
  rcases h with ⟨rfl, hk, h8, hn⟩ | ⟨rfl, hf, hc⟩ | ⟨rfl, hf, -, rfl, hlt⟩ | ⟨-, hx, hneeds, -⟩
  · simp [FaultRecord.legal, hk, h8, hn]
  · have hf' : s.cfg.oobPolicy = .fault := hf
    simpa [FaultRecord.legal, hf'] using hc
  · have hf' : s.cfg.oobPolicy = .fault := hf
    have hk := operandCount_opcode_le i
    have hpc : s.pc.toNat + 2 ≤ 255 := hr.resolve_left (by rw [hf']; decide)
    have hn : byteInt s.pc + operandCount i.opcode + 1 = 256 := by
      unfold byteInt at hlt ⊢
      rw [State.latched_pc] at hlt
      omega
    simp [FaultRecord.legal, hf', hn]
  · have hx' : s.cfg.aluLogicExt = false := hx
    have := aluLogicExt_of_wf hwf hneeds
    rw [hx'] at this
    cases this

theorem StepRaisedBy.legal {s : State} {c : FaultCause} {n : Int} (h : StepRaisedBy s c n) :
    (s.raise c n).faultRec.legal s.cfg = true := by
  rcases h with ⟨hr, rfl, rfl⟩ | ⟨ha, hl, rfl, rfl⟩ | ⟨ha, hl, rfl, rfl⟩ | ⟨hr, i, hi, hc⟩
  · simp [FaultRecord.legal, fault_of_not_inRange hr]
  · simp [FaultRecord.legal, ← State.byteAt_zero, ha, hl]
  · simp [FaultRecord.legal, ← State.byteAt_zero, ha, hl]
  · exact hc.legal hi hr

/-- A legal record gives codes 3 and 5 only under FAULT (60_exceptions.md R192, D6). -/
theorem FaultRecord.legal_wrap {cfg : Config} {r : FaultRecord} (h : r.legal cfg = true) (hw : cfg.oobPolicy = .wrap) :
    r.cause ≠ .memOutOfBounds ∧ r.cause ≠ .stackOutOfBounds := by
  refine ⟨fun hc => ?_, fun hc => ?_⟩
  · simp [FaultRecord.legal, hc, hw] at h
  · simp [FaultRecord.legal, hc, hw] at h

/-! ## The invariant -/

theorem StepRaisedBy.raise_inv {s : State} {c : FaultCause} {n : Int} (h : StepRaisedBy s c n) (hs : s.Inv) :
    (s.raise c n).Inv := by
  obtain ⟨hm, hfl, -⟩ := hs
  exact ⟨hm, hfl, fun _ => ⟨rfl, rfl, h.legal⟩⟩

theorem Effect.mem_wf {i : Instr} {s t : State} (h : Effect i s t) (hm : s.mem.wf = true) : t.mem.wf = true := by
  rcases h.mem_cases with ht | ⟨r, rfl | rfl⟩
  · rwa [ht]
  · obtain ⟨_, _, _, rfl⟩ := h
    exact Memory.write_wf _ hm (BitVec.isLt _)
  · obtain ⟨_, _, rfl⟩ := h
    exact Memory.write_wf _ hm (BitVec.isLt _)

theorem Effect.legalFl {i : Instr} {s t : State} (h : Effect i s t) (hfl : LegalFl s.fl) : LegalFl t.fl := by
  rcases h.fl_cases with ht | ⟨a, b, rfl⟩
  · rwa [LegalFl, ht]
  · exact .inr h.cmp_fl

/-- The effect of an instruction on a core that is not FAULTED keeps the invariant. -/
theorem Effect.inv {i : Instr} {s t : State} (h : Effect i s t) (hm : s.mem.wf = true) (hfl : LegalFl s.fl)
    (hs : s.status ≠ .faulted) : t.Inv :=
  ⟨h.mem_wf hm, h.legalFl hfl, fun ht => absurd ht (h.not_faulted hs)⟩

/-! ## What a step keeps -/

/-- No effect writes the parameters or FAULT (00_scope.md R4, 10_state.md R36). -/
theorem Effect.cfg_faultRec {i : Instr} {s t : State} (h : Effect i s t) : t.cfg = s.cfg ∧ t.faultRec = s.faultRec := by
  rcases h.writes_cases with ⟨_, _, rfl⟩ | ⟨-, rfl⟩ | ⟨_, _, _, -, rfl⟩ | ⟨_, _, _, _, -, rfl⟩ | ⟨_, _, _, _, -, rfl⟩
  · exact ⟨rfl, rfl⟩
  · exact ⟨rfl, rfl⟩
  · exact ⟨rfl, rfl⟩
  · exact ⟨rfl, rfl⟩
  · exact ⟨rfl, rfl⟩

/-- An effect leaves OUT, but for that of PRN (10_state.md R37). -/
theorem Effect.out_cases {i : Instr} {s t : State} (h : Effect i s t) : t.out = s.out ∨ ∃ r, i = .prn r := by
  rcases h.writes_cases with ⟨_, _, rfl⟩ | ⟨-, rfl⟩ | ⟨r, _, _, hi, -⟩ | ⟨_, _, _, _, -, rfl⟩ | ⟨_, _, _, _, -, rfl⟩
  · exact .inl rfl
  · exact .inl rfl
  · exact .inr ⟨r, hi⟩
  · exact .inl rfl
  · exact .inl rfl

/-- PRN's byte at pc is a PRN of the byte behind it. -/
theorem State.instrAtPc_prn {s : State} (h : s.byteAt 0#8 = Opcode.prn) : s.instrAtPc = .instr (.prn (s.byteAt 1#8)) :=
  State.instrAtPc_of_row (by rw [h]; exact classify_prn s.cfg)

/-- The operand byte of a PRN at pc is the byte behind its own. -/
theorem State.instrAtPc_eq_prn {s : State} {r : Byte} (h : s.instrAtPc = .instr (.prn r)) :
    s.byteAt 0#8 = Opcode.prn ∧ r = s.byteAt 1#8 := by
  obtain ⟨hop, -, -⟩ := State.instrAtPc_eq_instr h
  have hp := State.instrAtPc_prn hop.symm
  rw [h] at hp
  exact ⟨hop.symm, by simpa using hp⟩

end Sys2Proof.Machine
end

section
/-! The statements about a whole step: the invariant, precise faults, and what only some steps change. -/

namespace Sys2Proof.Machine

/-- Settles O39: a raise keeps memory and fl and records what the fault table allows; an effect keeps memory canonical
and fl legal and leaves no core FAULTED. -/
theorem everyStepKeepsTheInvariant : Obligations.EveryStepKeepsTheInvariant := by
  intro s t hs h
  rcases step_raises_or_effect h with ⟨c, n, hc, rfl⟩ | ⟨i, -, he⟩
  · exact hc.raise_inv hs
  · obtain ⟨hm, hfl, -⟩ := hs
    refine he.inv hm hfl ?_
    rw [State.latched_status, (step_cases h).1]
    decide

/-- Settles O15: a step to a FAULTED core is a raise on the state before. -/
theorem faultsArePrecise : Obligations.FaultsArePrecise := by
  intro s t h ht
  obtain ⟨c, n, -, rfl⟩ := step_raises_of_faulted h ht
  exact ⟨rfl, rfl, rfl⟩

/-- Settles O23: the record of every raise is legal, and under WRAP codes 3 and 5 are not. -/
theorem wrappingCoreNeverGoesOutOfBounds : Obligations.WrappingCoreNeverGoesOutOfBounds := by
  intro s t hw h ht
  obtain ⟨c, n, hc, rfl⟩ := step_raises_of_faulted h ht
  exact FaultRecord.legal_wrap hc.legal hw

/-- Settles O43: neither a raise nor an effect writes the parameters. -/
theorem parametersNeverChange : Obligations.ParametersNeverChange := by
  intro s t h
  rcases step_raises_or_effect h with ⟨c, n, -, rfl⟩ | ⟨i, -, he⟩
  · rfl
  · exact he.cfg_faultRec.1

/-- Settles O42: a raise leaves OUT, and so does every effect but PRN's, whose byte is 0x47. -/
theorem outGrowsByPrnAlone : Obligations.OutGrowsByPrnAlone := by
  intro s t h
  rcases step_raises_or_effect h with ⟨c, n, -, rfl⟩ | ⟨i, hi, he⟩
  · exact .inr ⟨.inr rfl, rfl⟩
  · by_cases hp : ∃ r, i = .prn r
    · obtain ⟨r, rfl⟩ := hp
      obtain ⟨hop, rfl⟩ := State.instrAtPc_eq_prn hi
      obtain ⟨hr, -, rfl⟩ := he
      refine .inl ⟨hop, ?_, hr, rfl⟩
      rw [State.setPc_status, State.emit_status, State.latched_status, (step_cases h).1]
      decide
    · refine .inr ⟨.inl fun hop => hp ⟨s.byteAt 1#8, ?_⟩, he.out_cases.resolve_right hp⟩
      rw [State.instrAtPc_prn hop] at hi
      exact (Decoded.instr.inj hi).symm

/-- Settles O11: every instruction answers a next state, which the step commits or discards. -/
theorem stepRunsTheDecodedInstruction : Obligations.StepRunsTheDecodedInstruction := by
  intro s i hs hr hi
  obtain ⟨p, hp⟩ := exec_next i s.latched
  refine ⟨p, hp, step_of_exec_next hs hr hi hp, fun hf => ?_⟩
  rw [step_of_instr hs hr hi, hp, State.commit, if_pos hf]

/-- Settles O14: an instruction raises or has its effect, and HLT's is the only one that writes STATUS. -/
theorem execEndsInOneOfThreeWays : Obligations.ExecEndsInOneOfThreeWays := by
  intro i s
  obtain ⟨t, h⟩ := exec_next i s
  refine ⟨t, h, ?_⟩
  rcases exec_cases h with ⟨c, n, -, rfl⟩ | he
  · exact .inr (.inr ⟨c, n, rfl⟩)
  · rcases he.status with hst | ⟨rfl, -⟩
    · exact .inl ⟨hst, he.cfg_faultRec.2⟩
    · exact .inr (.inl ⟨rfl, he⟩)

end Sys2Proof.Machine
end

section
/-! The converse of `exec_cases`: an instruction whose effect is possible has it, one whose register operand is bad
raises that, and the other raises of an instruction under their conditions. -/

namespace Sys2Proof.Machine

/-! ## The handler of each instruction -/

/-- The handler an instruction runs; HLT has none (41_non_alu.md R130). -/
def handlerOf : Instr → State → Res State
  | .hlt => .ok
  | .ldi r imm => ldiHandler r imm
  | .prn r => prnHandler r
  | .push r => pushHandler r
  | .pop r => popHandler r
  | .call r => callHandler r
  | .ret => retHandler
  | .jmp r => jmpHandler r
  | .jeq r => fun s => branchHandler s.flagE r s
  | .jne r => fun s => branchHandler (!s.flagE) r s
  | .add a b => aluHandler aluAdd a b
  | .sub a b => aluHandler aluSub a b
  | .mul a b => aluHandler aluMul a b
  | .cmp _ _ => cmpHandler
  | .and a b => aluHandler (fun u w => u &&& w) a b
  | .or a b => aluHandler (fun u w => u ||| w) a b
  | .xor a b => aluHandler (fun u w => u ^^^ w) a b
  | .shl a b => aluHandler aluShl a b
  | .shr a b => aluHandler aluShr a b

theorem runExt_present {s : State} (h : s.cfg.aluLogicExt = true) (op : Byte) (f : Byte → Byte → Byte) (a b : Byte) :
    runExt op f a b s = runHandler op (aluHandler f a b) s := if_pos h

/-- Without the extension an optional operation raises its byte (42_alu.md R170). -/
theorem runExt_absent {s : State} (h : s.cfg.aluLogicExt = false) (op : Byte) (f : Byte → Byte → Byte) (a b : Byte) :
    runExt op f a b s = .next (s.raise .unmappedAluOp (byteInt op)) := by
  rw [runExt, h, if_neg (by decide), State.finish_raise]

/-- An instruction the core has, other than HLT, runs its handler and advances by its opcode byte. -/
theorem exec_eq_runHandler {i : Instr} {s : State} (hwf : i.wf s.cfg = true) (hi : i ≠ .hlt) :
    exec i s = runHandler i.opcode (handlerOf i) s := by
  cases i with
  | hlt => exact absurd rfl hi
  | and a b => exact runExt_present (aluLogicExt_of_wf hwf rfl) _ _ a b
  | or a b => exact runExt_present (aluLogicExt_of_wf hwf rfl) _ _ a b
  | xor a b => exact runExt_present (aluLogicExt_of_wf hwf rfl) _ _ a b
  | shl a b => exact runExt_present (aluLogicExt_of_wf hwf rfl) _ _ a b
  | shr a b => exact runExt_present (aluLogicExt_of_wf hwf rfl) _ _ a b
  | _ => rfl

/-! ## Handlers that raise nothing -/

theorem pushHandler_ok {r : Byte} {s : State} (h : r.toNat < 8) (hc : s.CanPush) :
    pushHandler r s = .ok { s.setReg spIdx (s.reg spIdx - 1#8) with
      mem := s.mem.write (s.reg spIdx - 1#8).toNat
        (if r.toNat = 7 then s.reg spIdx - 1#8 else s.reg ⟨r.toNat, h⟩) } := by
  rcases pushHandler_cases r s with ⟨hr, -⟩ | ⟨-, hn, -⟩ | ⟨_, -, hp⟩
  · omega
  · exact absurd hc hn
  · exact hp

theorem popHandler_ok {r v w : Byte} {s : State} (h : r.toNat < 8) (hv : v = s.mem.read (s.reg spIdx).toNat)
    (hw : w = if r.toNat = 7 then v else s.reg spIdx) (hc : s.CanIncrement w) :
    popHandler r s = .ok ((s.setReg ⟨r.toNat, h⟩ v).setReg spIdx (w + 1#8)) := by
  subst hv hw
  rcases popHandler_cases r s with ⟨hr, -⟩ | ⟨_, _, _, rfl, rfl, ⟨hn, -⟩ | ⟨-, hp⟩⟩
  · omega
  · exact absurd hc hn
  · exact hp

theorem callHandler_ok {r : Byte} {s : State} (h : r.toNat < 8) (hc : s.CanPush) :
    callHandler r s = .ok { s.setReg spIdx (s.reg spIdx - 1#8) with
      mem := s.mem.write (s.reg spIdx - 1#8).toNat (s.pc + 2#8)
      pc := if r.toNat = 7 then s.reg spIdx - 1#8 else s.reg ⟨r.toNat, h⟩ } := by
  rcases callHandler_cases r s with ⟨hr, -⟩ | ⟨-, hn, -⟩ | ⟨_, -, hp⟩
  · omega
  · exact absurd hc hn
  · exact hp

theorem retHandler_ok {s : State} (hc : s.CanIncrement (s.reg spIdx)) :
    retHandler s = .ok ((s.setReg spIdx (s.reg spIdx + 1#8)).setPc (s.mem.read (s.reg spIdx).toNat)) := by
  simp [retHandler, State.incSp_ok hc]

theorem jmpHandler_ok {r : Byte} (h : r.toNat < 8) (s : State) :
    jmpHandler r s = .ok (s.setPc (s.reg ⟨r.toNat, h⟩)) := by
  simp [jmpHandler, checkReg_ok h]

theorem branchHandler_ok (taken : Bool) {r : Byte} (h : r.toNat < 8) (s : State) :
    branchHandler taken r s = .ok (s.setPc (if taken then s.reg ⟨r.toNat, h⟩ else s.pc + 2#8)) := by
  simp [branchHandler, checkReg_ok h]

theorem cmpHandler_ok {s : State} (ha : s.opa.toNat < 8) (hb : s.opb.toNat < 8) :
    cmpHandler s = .ok (s.setFl (cmpFlags (s.reg ⟨s.opa.toNat, ha⟩) (s.reg ⟨s.opb.toNat, hb⟩))) := by
  simp [cmpHandler, checkRegs_ok ha hb]

theorem aluHandler_ok (f : Byte → Byte → Byte) {a b : Byte} (ha : a.toNat < 8) (hb : b.toNat < 8) (s : State) :
    aluHandler f a b s = .ok (s.setReg ⟨a.toNat, ha⟩ (f (s.reg ⟨a.toNat, ha⟩) (s.reg ⟨b.toNat, hb⟩))) := by
  simp [aluHandler, checkRegs_ok ha hb]

/-! ## An effect that is possible is had -/

/-- An ALU operation whose effect is possible, of an instruction with three bytes. -/
theorem AluEffect.runHandler {f : Byte → Byte → Byte} {op a b : Byte} {s t : State} (h : AluEffect f a b s t)
    (hs : setsPcBit op = false) (hk : operandCount op = 2) : runHandler op (aluHandler f a b) s = .next t := by
  obtain ⟨ha, hb, hr, rfl⟩ := h
  have hadv := State.advance_inRange (op := op) hs
    (p := s.setReg ⟨a.toNat, ha⟩ (f (s.reg ⟨a.toNat, ha⟩) (s.reg ⟨b.toNat, hb⟩))) (by rw [hk]; exact hr)
  rw [hk] at hadv
  exact runHandler_of_ok (aluHandler_ok f ha hb s) hadv

/-- An optional operation whose effect is possible, on a core with the extension. -/
theorem AluEffect.runExt {f : Byte → Byte → Byte} {op a b : Byte} {s t : State} (h : AluEffect f a b s t)
    (hx : s.cfg.aluLogicExt = true) (hs : setsPcBit op = false) (hk : operandCount op = 2) :
    runExt op f a b s = .next t := by
  rw [runExt_present hx, h.runHandler hs hk]

/-- An instruction has the effect its conditions allow: the converse of `exec_cases`. -/
theorem Effect.exec {i : Instr} {s t : State} (h : Effect i s t) : exec i s = .next t := by
  cases i with
  | hlt => rw [show t = s.halt from h]; rfl
  | ldi r imm => obtain ⟨hr, hin, rfl⟩ := h; exact exec_ldi_ok hr imm hin
  | prn r => obtain ⟨hr, hin, rfl⟩ := h; exact exec_prn_ok hr hin
  | push r =>
    obtain ⟨hr, hc, hin, rfl⟩ := h
    exact runHandler_of_ok (pushHandler_ok hr hc)
      (State.advance_inRange setsPcBit_push (by rw [operandCount_push]; exact hin))
  | pop r =>
    obtain ⟨hr, v, w, hv, hw, hc, hin, rfl⟩ := h
    exact runHandler_of_ok (popHandler_ok hr hv hw hc)
      (State.advance_inRange setsPcBit_pop (by rw [operandCount_pop]; exact hin))
  | call r =>
    obtain ⟨hr, hc, rfl⟩ := h
    exact runHandler_of_ok (callHandler_ok hr hc) (State.advance_setsPc setsPcBit_call _)
  | ret =>
    obtain ⟨hc, rfl⟩ := h
    exact runHandler_of_ok (retHandler_ok hc) (State.advance_setsPc setsPcBit_ret _)
  | jmp r =>
    obtain ⟨hr, rfl⟩ := h
    exact runHandler_of_ok (jmpHandler_ok hr s) (State.advance_setsPc setsPcBit_jmp _)
  | jeq r =>
    obtain ⟨hr, rfl⟩ := h
    exact runHandler_of_ok (branchHandler_ok _ hr s) (State.advance_setsPc setsPcBit_jeq _)
  | jne r =>
    obtain ⟨hr, rfl⟩ := h
    exact runHandler_of_ok (branchHandler_ok _ hr s) (State.advance_setsPc setsPcBit_jne _)
  | cmp a b => obtain ⟨ha, hb, hin, rfl⟩ := h; exact exec_cmp_ok a b ha hb hin
  | add a b => exact AluEffect.runHandler h setsPcBit_add operandCount_add
  | sub a b => exact AluEffect.runHandler h setsPcBit_sub operandCount_sub
  | mul a b => exact AluEffect.runHandler h setsPcBit_mul operandCount_mul
  | and a b => exact h.2.runExt h.1 setsPcBit_and operandCount_and
  | or a b => exact h.2.runExt h.1 setsPcBit_or operandCount_or
  | xor a b => exact h.2.runExt h.1 setsPcBit_xor operandCount_xor
  | shl a b => exact h.2.runExt h.1 setsPcBit_shl operandCount_shl
  | shr a b => exact h.2.runExt h.1 setsPcBit_shr operandCount_shr

/-- A step has the effect that is possible for the instruction at pc. -/
theorem step_of_effect {s t : State} {i : Instr} (hs : s.status = .running) (hr : s.InRange 2)
    (hi : s.instrAtPc = .instr i) (he : Effect i s.latched t) : step s = .next t :=
  step_of_exec_next hs hr hi he.exec (he.not_faulted (by rw [State.latched_status, hs]; decide))

/-! ## Bad register operands -/

theorem checkReg_of_find {a r : Byte} (h : [a].find? (fun x => 8 ≤ x.toNat) = some r) :
    checkReg a = .raise .regOutOfBounds (byteInt r) := by
  by_cases ha : 8 ≤ a.toNat
  · have hr : a = r := by simpa [ha] using h
    rw [← hr, checkReg_raise ha]
  · simp [ha] at h

/-- Of two register operands the first bad one raises (40_cycle.md R107). -/
theorem checkRegs_of_find {a b r : Byte} (h : [a, b].find? (fun x => 8 ≤ x.toNat) = some r) :
    checkRegs a b = .raise .regOutOfBounds (byteInt r) := by
  by_cases ha : 8 ≤ a.toNat
  · have hr : a = r := by simpa [ha] using h
    rw [← hr, checkRegs, checkReg_raise ha, Res.bind_raise]
  · have hb : [b].find? (fun x => 8 ≤ x.toNat) = some r := by simpa [ha] using h
    rw [checkRegs, checkReg_ok (not_le.mp ha), Res.bind_ok, checkReg_of_find hb, Res.bind_raise]

theorem aluHandler_of_find (f : Byte → Byte → Byte) {a b r : Byte}
    (h : [a, b].find? (fun x => 8 ≤ x.toNat) = some r) (s : State) :
    aluHandler f a b s = .raise .regOutOfBounds (byteInt r) := by
  rw [aluHandler, checkRegs_of_find h, Res.bind_raise]

theorem branchHandler_of_find (taken : Bool) {a r : Byte} (h : [a].find? (fun x => 8 ≤ x.toNat) = some r) (s : State) :
    branchHandler taken a s = .raise .regOutOfBounds (byteInt r) := by
  rw [branchHandler, checkReg_of_find h, Res.bind_raise]

/-- CheckReg is the first thing every handler does, on the bytes `regOperands` lists; CMP's come from the latches
(42_alu.md R164). -/
theorem handlerOf_bad_register {i : Instr} {s : State} {r : Byte} (hcmp : ∀ a b, i = .cmp a b → a = s.opa ∧ b = s.opb)
    (h : (regOperands i).find? (fun x => 8 ≤ x.toNat) = some r) :
    handlerOf i s = .raise .regOutOfBounds (byteInt r) := by
  cases i with
  | hlt => cases h
  | ret => cases h
  | ldi a imm => rw [handlerOf, ldiHandler, checkReg_of_find h, Res.bind_raise]
  | prn a => rw [handlerOf, prnHandler, checkReg_of_find h, Res.bind_raise]
  | push a => rw [handlerOf, pushHandler, checkReg_of_find h, Res.bind_raise]
  | pop a => rw [handlerOf, popHandler, checkReg_of_find h, Res.bind_raise]
  | call a => rw [handlerOf, callHandler, checkReg_of_find h, Res.bind_raise]
  | jmp a => rw [handlerOf, jmpHandler, checkReg_of_find h, Res.bind_raise]
  | jeq a => exact branchHandler_of_find _ h s
  | jne a => exact branchHandler_of_find _ h s
  | cmp a b =>
    obtain ⟨rfl, rfl⟩ := hcmp a b rfl
    rw [handlerOf, cmpHandler, checkRegs_of_find h, Res.bind_raise]
  | add a b => exact aluHandler_of_find _ h s
  | sub a b => exact aluHandler_of_find _ h s
  | mul a b => exact aluHandler_of_find _ h s
  | and a b => exact aluHandler_of_find _ h s
  | or a b => exact aluHandler_of_find _ h s
  | xor a b => exact aluHandler_of_find _ h s
  | shl a b => exact aluHandler_of_find _ h s
  | shr a b => exact aluHandler_of_find _ h s

/-- CMP's byte at pc is a CMP of the two bytes behind it. -/
theorem State.instrAtPc_cmp {s : State} (h : s.byteAt 0#8 = Opcode.cmp) :
    s.instrAtPc = .instr (.cmp (s.byteAt 1#8) (s.byteAt 2#8)) :=
  State.instrAtPc_of_row (by rw [h]; exact classify_cmp s.cfg)

/-- In a step CMP's latched operands are its own bytes (92_eei_decisions.md D15). -/
theorem State.latched_cmp {s : State} {i : Instr} (h : s.instrAtPc = .instr i) :
    ∀ a b, i = .cmp a b → a = s.latched.opa ∧ b = s.latched.opb := by
  rintro a b rfl
  obtain ⟨hop, -, -⟩ := State.instrAtPc_eq_instr h
  have hrow := State.instrAtPc_cmp hop.symm
  rw [h] at hrow
  simpa using hrow

/-- The instruction at pc is one the core has, so it runs its handler on the latched state. -/
theorem State.exec_latched {s : State} {i : Instr} (h : s.instrAtPc = .instr i) (hne : i ≠ .hlt) :
    exec i s.latched = runHandler i.opcode (handlerOf i) s.latched := by
  obtain ⟨-, hwf, -⟩ := State.instrAtPc_eq_instr h
  exact exec_eq_runHandler hwf hne

/-! ## Three-byte instructions at the top of memory -/

theorem aluHandler_keeps_pc (f : Byte → Byte → Byte) {a b : Byte} (h : ∀ r ∈ [a, b], r.toNat < 8) (s : State) :
    ∃ p, aluHandler f a b s = .ok p ∧ p.pc = s.pc ∧ p.cfg = s.cfg :=
  ⟨_, aluHandler_ok f (h a (by simp)) (h b (by simp)) s, rfl, rfl⟩

/-- The handler of a three-byte instruction whose register operands are good leaves pc and the parameters. -/
theorem handlerOf_three_bytes {i : Instr} {s : State} (hcmp : ∀ a b, i = .cmp a b → a = s.opa ∧ b = s.opb)
    (hlen : instrLength i.opcode = 3) (hgood : ∀ r ∈ regOperands i, r.toNat < 8) :
    setsPcBit i.opcode = false ∧ ∃ p, handlerOf i s = .ok p ∧ p.pc = s.pc ∧ p.cfg = s.cfg := by
  cases i with
  | ldi r imm => exact ⟨setsPcBit_ldi, _, ldiHandler_ok (hgood r (by simp [regOperands])) imm s, rfl, rfl⟩
  | cmp a b =>
    obtain ⟨rfl, rfl⟩ := hcmp a b rfl
    have ha : s.opa.toNat < 8 := hgood _ (by simp [regOperands])
    have hb : s.opb.toNat < 8 := hgood _ (by simp [regOperands])
    exact ⟨setsPcBit_cmp, _, cmpHandler_ok ha hb, rfl, rfl⟩
  | add a b => exact ⟨setsPcBit_add, aluHandler_keeps_pc _ hgood s⟩
  | sub a b => exact ⟨setsPcBit_sub, aluHandler_keeps_pc _ hgood s⟩
  | mul a b => exact ⟨setsPcBit_mul, aluHandler_keeps_pc _ hgood s⟩
  | and a b => exact ⟨setsPcBit_and, aluHandler_keeps_pc _ hgood s⟩
  | or a b => exact ⟨setsPcBit_or, aluHandler_keeps_pc _ hgood s⟩
  | xor a b => exact ⟨setsPcBit_xor, aluHandler_keeps_pc _ hgood s⟩
  | shl a b => exact ⟨setsPcBit_shl, aluHandler_keeps_pc _ hgood s⟩
  | shr a b => exact ⟨setsPcBit_shr, aluHandler_keeps_pc _ hgood s⟩
  | _ => simp [instrLength, Instr.opcode] at hlen

/-- The advance of a three-byte instruction at 253 would go to 256 (40_cycle.md R110). -/
theorem State.advance_at_253 {op : Byte} {p : State} (hs : setsPcBit op = false) (hlen : instrLength op = 3)
    (hf : p.cfg.oobPolicy = .fault) (hpc : p.pc = 253#8) : p.advance op = .raise .memOutOfBounds 256 := by
  have hk : operandCount op = 2 := Nat.succ.inj hlen
  rw [State.advance_raise hs hf (by rw [hpc, hk]; decide), hpc, hk]
  rfl

/-! ## The stack's raises -/

theorem exec_push_stack_raise {r : Byte} {s : State} (h : r.toNat < 8) (hc : ¬ s.CanPush) :
    exec (.push r) s = .next (s.raise .stackOutOfBounds (-1)) :=
  runHandler_of_raise (by rw [pushHandler, checkReg_ok h, Res.bind_ok, State.decSp_raise hc, Res.bind_raise])

theorem exec_call_stack_raise {r : Byte} {s : State} (h : r.toNat < 8) (hc : ¬ s.CanPush) :
    exec (.call r) s = .next (s.raise .stackOutOfBounds (-1)) :=
  runHandler_of_raise (by rw [callHandler, checkReg_ok h, Res.bind_ok, State.decSp_raise hc, Res.bind_raise])

/-- POP raises when the SP it leaves would be 256: one more than SP, or for R7 than the byte popped (D14). -/
theorem exec_pop_stack_raise {r : Byte} {s : State} (h : r.toNat < 8)
    (hc : ¬ s.CanIncrement (if r.toNat = 7 then s.mem.read (s.reg spIdx).toNat else s.reg spIdx)) :
    exec (.pop r) s = .next (s.raise .stackOutOfBounds 256) := by
  refine runHandler_of_raise ?_
  rcases popHandler_cases r s with ⟨hr, -⟩ | ⟨-, _, _, rfl, rfl, ⟨-, hp⟩ | ⟨hn, -⟩⟩
  · omega
  · exact hp
  · exact absurd hn hc

theorem exec_ret_stack_raise {s : State} (hc : ¬ s.CanIncrement (s.reg spIdx)) :
    exec .ret s = .next (s.raise .stackOutOfBounds 256) :=
  runHandler_of_raise (by rw [retHandler, State.loadTop_eq, Res.bind_ok, State.incSp_raise hc, Res.bind_raise])

theorem State.not_canPush {s : State} (hf : s.cfg.oobPolicy = .fault) (h : s.reg spIdx = 0#8) : ¬ s.CanPush := by
  simp [State.CanPush, hf, h]

theorem State.not_canIncrement {s : State} {v : Byte} (hf : s.cfg.oobPolicy = .fault) (h : v = 255#8) :
    ¬ s.CanIncrement v := by
  simp [State.CanIncrement, hf, h]

end Sys2Proof.Machine
end

section
/-! The statements about which fault is raised. -/

namespace Sys2Proof.Machine

/-- Settles O16: the byte's ALU bit selects the ALU table, which does not have it. -/
theorem unmappedAluByteFaults : Obligations.UnmappedAluByteFaults := by
  intro s hs hr ha hbase hext
  have hnone : s.byteAt 0#8 ∉ (aluTable s.cfg).map (·.opcode) := by
    unfold aluTable
    split
    · next hx =>
      rw [List.map_append]
      exact List.not_mem_append hbase (hext hx)
    · exact hbase
  rw [step_running hs, if_pos hr, State.instrAtPc_of_reject (classify_reject_alu ha hnone)]
  rfl

/-- Settles O17: the ten bytes are those of the non-ALU table. -/
theorem unmappedByteIsDecodeFault : Obligations.UnmappedByteIsDecodeFault := by
  intro s hs hr ha hbytes
  have hnone : s.byteAt 0#8 ∉ nonAluTable.map (·.opcode) := hbytes
  rw [step_running hs, if_pos hr, State.instrAtPc_of_reject (classify_reject_nonAlu ha hnone)]
  rfl

/-- Settles O18: the fetch at 254 or 255 is out of range. -/
theorem fetchPastTheTopFaultsFirst : Obligations.FetchPastTheTopFaultsFirst :=
  fun _ hs hf hpc => step_of_not_inRange hs (State.not_inRange hf (by omega))

/-- Settles O19: the instruction is not HLT, so it runs its handler, which checks its register operands first. -/
theorem badRegisterOperandFaults : Obligations.BadRegisterOperandFaults := by
  intro s i r hs hr hi hfind
  have hne : i ≠ .hlt := by
    rintro rfl
    cases hfind
  refine step_of_exec_raise hs hr hi ?_
  rw [State.exec_latched hi hne]
  exact runHandler_of_raise (handlerOf_bad_register (State.latched_cmp hi) hfind)

/-- Settles O20: under FAULT the SP that PUSH and CALL leave at 0 is -1, and the one POP and RET leave at 255 is 256. -/
theorem stackOutOfRangeFaults : Obligations.StackOutOfRangeFaults := by
  refine fun s hf => ⟨fun r h h0 => ?_, fun r h h255 => ?_, fun h255 => ?_, fun h255 => ?_⟩
  · have hc := State.not_canPush hf h0
    exact ⟨exec_push_stack_raise h hc, exec_call_stack_raise h hc⟩
  · refine exec_pop_stack_raise (by omega) (State.not_canIncrement hf ?_)
    rwa [if_neg (by omega)]
  · exact exec_pop_stack_raise (by decide) (State.not_canIncrement hf h255)
  · exact exec_ret_stack_raise (State.not_canIncrement hf h255)

/-- Settles O21: the handler raises nothing and leaves pc at 253, from where the advance leaves memory. -/
theorem advancePastTheTopFaults : Obligations.AdvancePastTheTopFaults := by
  intro s i hs hf hpc hi hlen hgood
  have hr : s.InRange 2 := .inr (by rw [hpc]; decide)
  have hne : i ≠ .hlt := by
    rintro rfl
    simp [instrLength, Instr.opcode] at hlen
  obtain ⟨hset, p, hp, hppc, hpcfg⟩ := handlerOf_three_bytes (State.latched_cmp hi) hlen hgood
  have hadv : p.advance i.opcode = .raise .memOutOfBounds 256 :=
    State.advance_at_253 hset hlen (by rw [hpcfg]; exact hf) (hppc.trans hpc)
  refine step_of_exec_raise hs hr hi ?_
  rw [State.exec_latched hi hne]
  exact runHandler_of_advance_raise hp hadv

/-- Settles O22: each of the five checks the extension first. -/
theorem absentExtensionFaults : Obligations.AbsentExtensionFaults := by
  intro s i hx hi
  cases i with
  | and a b => exact runExt_absent hx _ _ a b
  | or a b => exact runExt_absent hx _ _ a b
  | xor a b => exact runExt_absent hx _ _ a b
  | shl a b => exact runExt_absent hx _ _ a b
  | shr a b => exact runExt_absent hx _ _ a b
  | _ => cases hi

end Sys2Proof.Machine
end

section
/-! The statements of 41_non_alu.md and 42_alu.md about what one instruction leaves: each names an effect whose
conditions hold, which `Effect.exec` says the instruction has. -/

namespace Sys2Proof.Machine

/-- HLT's byte at pc is HLT. -/
theorem State.instrAtPc_hlt {s : State} (h : s.byteAt 0#8 = Opcode.hlt) : s.instrAtPc = .instr .hlt :=
  State.instrAtPc_of_row (by rw [h]; exact classify_hlt s.cfg)

/-- Bytes compare as their unsigned values do (42_alu.md R164). -/
theorem cmpFlags_eq (u w : Byte) :
    cmpFlags u w = if u.toNat = w.toNat then 0b00000001#8
      else if w.toNat < u.toNat then 0b00000010#8 else 0b00000100#8 := by
  simp only [cmpFlags, BitVec.toNat_inj]

/-- Settles O24: HLT has its effect in every state, on the latched one too. -/
theorem hltHaltsAtItsOwnAddress : Obligations.HltHaltsAtItsOwnAddress :=
  ⟨fun _ => rfl, fun _ hs hr hb => step_of_effect hs hr (State.instrAtPc_hlt hb) rfl⟩

/-- Settles O27 by the effect of PUSH. -/
theorem pushStoresBelowTheTop : Obligations.PushStoresBelowTheTop :=
  fun _ r h hc hr => Effect.exec (i := .push r) ⟨h, hc, hr, rfl⟩

/-- Settles O28 by the effect of POP. -/
theorem popLoadsTheTop : Obligations.PopLoadsTheTop :=
  fun _ r v w h hv hw hc hr => Effect.exec (i := .pop r) ⟨h, v, w, hv, hw, hc, hr, rfl⟩

/-- Settles O29 by the effect of CALL. -/
theorem callStacksTheReturnAddress : Obligations.CallStacksTheReturnAddress :=
  fun _ r h hc _ => Effect.exec (i := .call r) ⟨h, hc, rfl⟩

/-- Settles O30 by the effect of RET. -/
theorem retPopsThePc : Obligations.RetPopsThePc :=
  fun _ hc => Effect.exec (i := .ret) ⟨hc, rfl⟩

/-- Settles O31 by the effects of JMP, JEQ and JNE; `flagE` is fl bit 0. -/
theorem jumpsGoWhereTheRulesSay : Obligations.JumpsGoWhereTheRulesSay := by
  refine fun s r h => ⟨Effect.exec (i := .jmp r) ⟨h, rfl⟩, fun _ =>
    ⟨Effect.exec (i := .jeq r) ⟨h, rfl⟩, Effect.exec (i := .jne r) ⟨h, ?_⟩⟩⟩
  have hE : s.fl.getLsbD 0 = s.flagE := rfl
  rw [hE]
  cases s.flagE <;> rfl

/-- Settles O32 by the effects of ADD, SUB and MUL, whose results are those modulo 256. -/
theorem arithmeticWrapsModulo256 : Obligations.ArithmeticWrapsModulo256 := by
  rintro s a b ha hb _ _ hr rfl rfl
  rw [← aluAdd_eq, ← aluSub_eq, ← aluMul_eq]
  exact ⟨Effect.exec (i := .add a b) ⟨ha, hb, hr, rfl⟩, Effect.exec (i := .sub a b) ⟨ha, hb, hr, rfl⟩,
    Effect.exec (i := .mul a b) ⟨ha, hb, hr, rfl⟩⟩

/-- Settles O33 by the effect of CMP; in a step the latches hold the bytes behind its own. -/
theorem cmpSetsExactlyOneFlag : Obligations.CmpSetsExactlyOneFlag := by
  constructor
  · rintro s a b ha hb _ _ hr rfl rfl
    rw [← cmpFlags_eq]
    exact Effect.exec (i := .cmp a b) ⟨ha, hb, hr, rfl⟩
  · rintro s ha hb _ _ hs hr hop rfl rfl
    rw [← cmpFlags_eq]
    exact step_of_effect hs (hr.mono (by decide)) (State.instrAtPc_cmp hop) ⟨ha, hb, hr, rfl⟩

/-- Settles O34 by the effects of AND, OR and XOR. -/
theorem logicIsBitwise : Obligations.LogicIsBitwise := by
  rintro s a b ha hb u w hx hr rfl rfl
  exact ⟨⟨_, Effect.exec (i := .and a b) ⟨hx, ha, hb, hr, rfl⟩, fun _ => BitVec.getLsbD_and⟩,
    ⟨_, Effect.exec (i := .or a b) ⟨hx, ha, hb, hr, rfl⟩, fun _ => BitVec.getLsbD_or⟩,
    ⟨_, Effect.exec (i := .xor a b) ⟨hx, ha, hb, hr, rfl⟩, fun _ => BitVec.getLsbD_xor⟩⟩

/-- Settles O35 by the effects of SHL and SHR, whose results are those on naturals. -/
theorem shiftsAreLogical : Obligations.ShiftsAreLogical := by
  rintro s a b ha hb _ _ hx hr rfl rfl
  rw [← aluShl_eq, ← aluShr_eq]
  exact ⟨Effect.exec (i := .shl a b) ⟨hx, ha, hb, hr, rfl⟩, Effect.exec (i := .shr a b) ⟨hx, ha, hb, hr, rfl⟩⟩

end Sys2Proof.Machine
end

section
/-! The frames: which registers, which byte of memory and which of the rest an instruction may change. -/

namespace Sys2Proof.Machine

/-- The one register that reads differently after a register write is the one written. -/
theorem State.eq_of_setReg_reg_ne {s : State} {i k : RegIdx} {v : Byte}
    (h : (s.setReg i v).reg k ≠ s.reg k) : k = i := by
  by_contra hk
  rw [State.setReg_reg, if_neg hk] at h
  exact h rfl

/-- The operand byte of a register that reads differently after the write of the register it names. -/
theorem State.eq_ofNat_of_setReg_reg_ne {s : State} {r : Byte} {h : r.toNat < 8} {k : RegIdx} {v : Byte}
    (hk : (s.setReg ⟨r.toNat, h⟩ v).reg k ≠ s.reg k) : r = BitVec.ofNat 8 k.val := by
  rw [State.eq_of_setReg_reg_ne hk, BitVec.ofNat_toNat, BitVec.setWidth_eq]

/-- An ALU operation changes the register operand A names and no other. -/
theorem AluEffect.eq_ofNat_of_reg_ne {f : Byte → Byte → Byte} {a b : Byte} {s t : State} {k : RegIdx}
    (h : AluEffect f a b s t) (hk : t.reg k ≠ s.reg k) : a = BitVec.ofNat 8 k.val := by
  obtain ⟨_, _, _, rfl⟩ := h
  exact State.eq_ofNat_of_setReg_reg_ne hk

/-- POP changes the register it names and SP. -/
theorem eq_ofNat_or_spIdx_of_pop_ne {s : State} {r : Byte} {h : r.toNat < 8} {k : RegIdx} {v w : Byte}
    (hk : ((s.setReg ⟨r.toNat, h⟩ v).setReg spIdx w).reg k ≠ s.reg k) : r = BitVec.ofNat 8 k.val ∨ k = spIdx := by
  by_cases h7 : k = spIdx
  · exact .inr h7
  · rw [State.setReg_reg, if_neg h7] at hk
    exact .inl (State.eq_ofNat_of_setReg_reg_ne hk)

/-- Settles O36: a raise leaves the registers, and of an effect the register that differs is one it writes. -/
theorem onlyDestinationRegistersChange : Obligations.OnlyDestinationRegistersChange := by
  intro i s t k h hk
  rcases exec_cases h with ⟨_, _, -, rfl⟩ | he
  · exact absurd rfl hk
  cases i with
  | hlt => rw [show t = s.halt from he] at hk; exact absurd rfl hk
  | prn r => obtain ⟨_, _, rfl⟩ := he; exact absurd rfl hk
  | jmp r => obtain ⟨_, rfl⟩ := he; exact absurd rfl hk
  | jeq r => obtain ⟨_, rfl⟩ := he; exact absurd rfl hk
  | jne r => obtain ⟨_, rfl⟩ := he; exact absurd rfl hk
  | cmp a b => obtain ⟨_, _, _, rfl⟩ := he; exact absurd rfl hk
  | ldi r imm =>
    obtain ⟨hr, _, rfl⟩ := he
    have hd : r = BitVec.ofNat 8 k.val := State.eq_ofNat_of_setReg_reg_ne hk
    exact .inl ⟨imm, by rw [hd]⟩
  | pop r =>
    obtain ⟨hr, v, w, _, _, _, _, rfl⟩ := he
    rcases eq_ofNat_or_spIdx_of_pop_ne hk with hd | h7
    · exact .inr (.inl (by rw [hd]))
    · exact .inr (.inr (.inr ⟨h7, .inr ⟨r, .inr (.inl rfl)⟩⟩))
  | push r =>
    obtain ⟨_, _, _, rfl⟩ := he
    have h7 : k = spIdx := State.eq_of_setReg_reg_ne hk
    exact .inr (.inr (.inr ⟨h7, .inr ⟨r, .inl rfl⟩⟩))
  | call r =>
    obtain ⟨_, _, rfl⟩ := he
    have h7 : k = spIdx := State.eq_of_setReg_reg_ne hk
    exact .inr (.inr (.inr ⟨h7, .inr ⟨r, .inr (.inr rfl)⟩⟩))
  | ret =>
    obtain ⟨_, rfl⟩ := he
    have h7 : k = spIdx := State.eq_of_setReg_reg_ne hk
    exact .inr (.inr (.inr ⟨h7, .inl rfl⟩))
  | add a b => exact .inr (.inr (.inl ⟨b, by simp [AluEffect.eq_ofNat_of_reg_ne he hk]⟩))
  | sub a b => exact .inr (.inr (.inl ⟨b, by simp [AluEffect.eq_ofNat_of_reg_ne he hk]⟩))
  | mul a b => exact .inr (.inr (.inl ⟨b, by simp [AluEffect.eq_ofNat_of_reg_ne he hk]⟩))
  | and a b => exact .inr (.inr (.inl ⟨b, by simp [he.2.eq_ofNat_of_reg_ne hk]⟩))
  | or a b => exact .inr (.inr (.inl ⟨b, by simp [he.2.eq_ofNat_of_reg_ne hk]⟩))
  | xor a b => exact .inr (.inr (.inl ⟨b, by simp [he.2.eq_ofNat_of_reg_ne hk]⟩))
  | shl a b => exact .inr (.inr (.inl ⟨b, by simp [he.2.eq_ofNat_of_reg_ne hk]⟩))
  | shr a b => exact .inr (.inr (.inl ⟨b, by simp [he.2.eq_ofNat_of_reg_ne hk]⟩))

/-- A store at the slot below the top leaves every other address. -/
theorem State.read_write_pushSlot_ne {s : State} (hc : s.CanPush) {a : Nat} (ha : (a : Int) ≠ s.pushSlot) (v : Byte) :
    (s.mem.write (s.reg spIdx - 1#8).toNat v).read a = s.mem.read a := by
  refine Memory.read_write_ne _ v fun e => ha ?_
  rw [State.pushSlot_eq hc, e]
  rfl

/-- Settles O37: a raise leaves memory, PUSH and CALL store at the slot below the top, and every other effect leaves
memory. -/
theorem memoryChangesOnlyAtThePushSlot : Obligations.MemoryChangesOnlyAtThePushSlot := by
  intro i s t h
  rcases exec_cases h with ⟨_, _, -, rfl⟩ | he
  · exact ⟨fun _ _ _ => rfl, fun _ _ => rfl⟩
  · refine ⟨fun ⟨r, hi⟩ a ha => ?_, fun hi a => ?_⟩
    · rcases hi with rfl | rfl
      · obtain ⟨_, hc, _, rfl⟩ := he
        exact State.read_write_pushSlot_ne hc ha _
      · obtain ⟨_, hc, rfl⟩ := he
        exact State.read_write_pushSlot_ne hc ha _
    · rw [he.mem_cases.resolve_right fun ⟨r, hr⟩ => hr.elim (hi r).1 (hi r).2]

/-- Settles O38: a raise writes STATUS and FAULT; beside registers, memory and pc an effect writes fl for CMP, OUT for
PRN and STATUS for HLT. -/
theorem otherStateIsFramed : Obligations.OtherStateIsFramed := by
  intro i s t h
  rcases exec_cases h with ⟨_, _, -, rfl⟩ | he
  · exact ⟨rfl, rfl, rfl, rfl, fun _ => rfl, fun _ => rfl, fun _ ht => absurd rfl ht, fun ht => absurd rfl ht,
      fun _ => rfl, fun _ _ => rfl⟩
  · obtain ⟨hir, hopa, hopb⟩ := he.latches
    obtain ⟨hcfg, hrec⟩ := he.cfg_faultRec
    refine ⟨hir, hopa, hopb, hcfg, fun hi => ?_, fun hi => ?_, fun hi _ => ?_, fun _ => hrec, ?_, fun hs ht => ?_⟩
    · exact he.fl_cases.resolve_right fun ⟨a, b, hc⟩ => hi a b hc
    · exact he.out_cases.resolve_right fun ⟨r, hp⟩ => hi r hp
    · exact he.status.resolve_right fun ⟨hh, _⟩ => hi hh
    · rintro rfl
      rw [show t = s.halt from he, State.halt_pc]
    · exact absurd ht (he.not_faulted hs)

end Sys2Proof.Machine
end

section
/-! Memory as the instructions see it: MemRead and MemWrite, and PUSH, POP, CALL and RET after one another. -/

namespace Sys2Proof.Machine

theorem State.memRead_inside (s : State) {a : Int} (h : 0 ≤ a ∧ a ≤ 255) : s.memRead a = .ok (s.mem.read a.toNat) :=
  if_neg (by omega)

theorem State.memRead_outside (s : State) {a : Int} (h : ¬ (0 ≤ a ∧ a ≤ 255)) :
    s.memRead a = .raise .memOutOfBounds a := if_pos (by omega)

theorem State.memWrite_inside (s : State) {a : Int} (h : 0 ≤ a ∧ a ≤ 255) (v : Byte) :
    s.memWrite a v = .ok { s with mem := s.mem.write a.toNat v } := if_neg (by omega)

theorem State.memWrite_outside (s : State) {a : Int} (h : ¬ (0 ≤ a ∧ a ≤ 255)) (v : Byte) :
    s.memWrite a v = .raise .memOutOfBounds a := if_pos (by omega)

/-- MemRead after a write to another address (20_memory.md R59). -/
theorem State.memRead_write_ne (s : State) {a b : Int} (ha : 0 ≤ a) (hb : b ≠ a) (v : Byte) :
    ({ s with mem := s.mem.write a.toNat v } : State).memRead b = s.memRead b := by
  by_cases h : 0 ≤ b ∧ b ≤ 255
  · rw [State.memRead_inside _ h, State.memRead_inside _ h, Memory.read_write_ne _ v (by omega)]
  · rw [State.memRead_outside _ h, State.memRead_outside _ h]

/-- Settles O44 by the laws of the canonical memory, inside the address space and outside. -/
theorem memReadGivesTheLastMemWrite : Obligations.MemReadGivesTheLastMemWrite := by
  refine fun s a v hm => ⟨fun ha => ?_, fun ha => ⟨s.memWrite_outside ha v, s.memRead_outside ha⟩⟩
  refine ⟨_, s.memWrite_inside ha v, ?_, Memory.write_wf v hm ?_, fun b hb => s.memRead_write_ne ha.1 hb v, rfl⟩
  · rw [State.memRead_inside _ ha, Memory.read_write_self hm]
  · unfold memSize
    omega

/-- An instruction that did not raise had its effect. -/
theorem effect_of_exec_running {i : Instr} {s t : State} (h : exec i s = .next t) (ht : t.status = .running) :
    Effect i s t := by
  rcases exec_cases h with ⟨_, _, -, rfl⟩ | he
  · cases ht
  · exact he

/-- A fetch that succeeds latches the byte at pc into IR (40_cycle.md R101). -/
theorem State.fetch_ir {s u : State} (h : s.fetch = .ok u) : u.ir = s.mem.read s.pc.toNat := by
  by_cases hr : s.InRange 2
  · rw [State.fetch_ok hr] at h
    cases h
    exact s.byteAt_zero
  · rw [State.fetch_raise hr] at h
    cases h

/-- Settles O45: the next fetch reads the slot PUSH stored to, which reads back in a canonical memory. -/
theorem nextFetchSeesThePushedByte : Obligations.NextFetchSeesThePushedByte := by
  intro s t u r h hm hpush ht hpc hfetch
  have hir := State.fetch_ir hfetch
  obtain ⟨_, hc, _, rfl⟩ := effect_of_exec_running hpush ht
  rw [State.pushSlot_eq hc] at hpc
  rw [hir, Int.ofNat_inj.mp hpc]
  exact Memory.read_write_self hm _ _

/-- What PUSH leaves for a POP: SP one less, and the byte stored there, which reads back in a canonical memory. -/
theorem Effect.push_top {r : Byte} {s t : State} (h : Effect (.push r) s t) (hm : s.mem.wf = true) :
    ∃ hr : r.toNat < 8, t.regs = s.regs.set spIdx (s.reg spIdx - 1#8) ∧ t.reg spIdx = s.reg spIdx - 1#8 ∧
      t.mem.read (t.reg spIdx).toNat = if r.toNat = 7 then s.reg spIdx - 1#8 else s.reg ⟨r.toNat, hr⟩ := by
  obtain ⟨hr, -, -, ht⟩ := h
  have hregs : t.regs = s.regs.set spIdx (s.reg spIdx - 1#8) := by rw [ht]; rfl
  have hsp : t.reg spIdx = s.reg spIdx - 1#8 := by rw [State.reg, hregs, RegFile.get_set_self]
  exact ⟨hr, hregs, hsp, by rw [hsp, ht, Memory.read_write_self hm]⟩

/-- What CALL leaves for a RET: SP one less, and pc + 2 stored there. -/
theorem Effect.call_top {r : Byte} {s t : State} (h : Effect (.call r) s t) (hm : s.mem.wf = true) :
    t.reg spIdx = s.reg spIdx - 1#8 ∧ t.mem.read (t.reg spIdx).toNat = s.pc + 2#8 := by
  obtain ⟨_, -, ht⟩ := h
  have hregs : t.regs = s.regs.set spIdx (s.reg spIdx - 1#8) := by rw [ht]; rfl
  have hsp : t.reg spIdx = s.reg spIdx - 1#8 := by rw [State.reg, hregs, RegFile.get_set_self]
  exact ⟨hsp, by rw [hsp, ht, Memory.read_write_self hm]⟩

/-- A register file with SP lowered, then register `i` as it was and SP as it was, is the one before. -/
theorem RegFile.set_sp_restored (f : RegFile) (i : RegIdx) (w v : Byte) (hv : i ≠ spIdx → v = f.get i) :
    ((f.set spIdx w).set i v).set spIdx (f.get spIdx) = f := by
  refine RegFile.ext_get fun k => ?_
  by_cases h7 : k = spIdx
  · simp [h7]
  · by_cases hk : k = i
    · subst hk
      simp [h7, hv h7]
    · simp [h7, hk]

/-- Settles O46: POP reads the slot PUSH stored to, and SP - 1 + 1 is SP, for R7 by way of the byte popped. -/
theorem pushThenPopRestoresTheRegisters : Obligations.PushThenPopRestoresTheRegisters := by
  intro s t u r hm hpush ht hpop hu
  obtain ⟨hr, hregs, hsp, htop⟩ := (effect_of_exec_running hpush ht).push_top hm
  obtain ⟨_, v, w, hv, hw, -, -, rfl⟩ := effect_of_exec_running hpop hu
  rw [htop] at hv
  have hw' : w + 1#8 = s.reg spIdx := by
    rw [hw, hsp, hv]
    split <;> exact BitVec.sub_add_cancel _ _
  rw [State.setPc_regs, State.setReg_regs, State.setReg_regs, hregs, hw']
  refine RegFile.set_sp_restored s.regs _ _ v fun hne => ?_
  have h7 : r.toNat ≠ 7 := fun h7 => hne (Fin.ext h7)
  rw [hv, if_neg h7]
  rfl

/-- Settles O47: RET reads the slot CALL stored pc + 2 to, and SP - 1 + 1 is SP. -/
theorem retReturnsBehindTheCall : Obligations.RetReturnsBehindTheCall := by
  intro s t q u r hm _ hcall ht hsp hstack hret _ hu
  obtain ⟨hsp', htop⟩ := (effect_of_exec_running hcall ht).call_top hm
  obtain ⟨-, rfl⟩ := effect_of_exec_running hret hu
  have hq : q.reg spIdx = t.reg spIdx := hsp
  constructor
  · rw [State.setPc_pc, hq]
    exact hstack.trans htop
  · have hu7 : (q.setReg spIdx (q.reg spIdx + 1#8)).reg spIdx = s.reg spIdx := by
      rw [State.setReg_reg, if_pos rfl, hq, hsp', BitVec.sub_add_cancel]
    exact hu7

end Sys2Proof.Machine
end

section
/-! The statements about reset, the loaded image and the host's side (10_state.md section 8, 70_reset_and_hazards.md
section 3). -/

namespace Sys2Proof.Machine

theorem loadImage_of_le (cfg : Config) {image : List Byte} (h : image.length ≤ memSize) :
    loadImage cfg image = some { State.reset with mem := placeImage 0 image State.reset.mem, cfg := cfg } := if_pos h

/-- Settles O2 by what placing an image at 0 leaves inside and outside it. -/
theorem loadPlacesImage : Obligations.LoadPlacesImage := by
  refine fun cfg image => ⟨fun h => ⟨_, loadImage_of_le cfg h, fun k hk => ?_, fun k hk => ?_, rfl⟩, fun h => ?_⟩
  · have hr := placeImage_read_inside (a := 0) State.reset_mem_wf (by rw [Nat.zero_add]; exact h) hk
    rwa [Nat.zero_add] at hr
  · exact placeImage_read_outside (.inr (by omega))
  · exact if_neg (not_le.mpr h)

/-- Settles O1: registers one by one, the rest by the definition of reset. -/
theorem resetStateIsAsSpecified : Obligations.ResetStateIsAsSpecified :=
  ⟨by decide, fun _ => rfl, rfl, rfl, rfl, rfl, rfl, rfl⟩

theorem State.inv_of_running {s : State} (hm : s.mem.wf = true) (hfl : LegalFl s.fl) (hs : s.status = .running) :
    s.Inv := by
  refine ⟨hm, hfl, fun hf => ?_⟩
  rw [hs] at hf
  cases hf

/-- Settles O3: placing an image keeps memory canonical, and a core that starts is RUNNING with fl = 0. -/
theorem loadedCoreMeetsInvariant : Obligations.LoadedCoreMeetsInvariant := by
  refine ⟨State.inv_of_running State.reset_mem_wf (.inl rfl) rfl, fun cfg image s h => ?_⟩
  obtain ⟨hlen, rfl⟩ := loadImage_eq_some h
  exact State.inv_of_running (placeImage_wf State.reset_mem_wf (by omega)) (.inl rfl) rfl

theorem digitChar_eq {d : Nat} (h : d < 10) : digitChar d = Nat.digitChar d := by
  have : ∀ d < 10, digitChar d = Nat.digitChar d := by decide
  exact this d h

/-- The decimal line of a byte is its decimal digits, of which it has one, two or three. -/
theorem decimalChars_eq_toDigits (v : Byte) : decimalChars v = Nat.toDigits 10 v.toNat := by
  have hv := v.isLt
  unfold decimalChars
  dsimp only
  split_ifs with h1 h2
  · rw [Nat.toDigits_of_lt_base h1, digitChar_eq h1]
  · rw [Nat.toDigits_of_base_le (by decide) (by omega), Nat.toDigits_of_lt_base (by omega),
      digitChar_eq (by omega), digitChar_eq (by omega)]
    rfl
  · rw [Nat.toDigits_of_base_le (by decide) (by omega), Nat.toDigits_of_base_le (by decide) (by omega),
      Nat.toDigits_of_lt_base (by omega), digitChar_eq (by omega), digitChar_eq (by omega), digitChar_eq (by omega),
      Nat.div_div_eq_div_mul]
    rfl

/-- Settles O4: the decimal lines, and the host's reads in each STATUS. -/
theorem hostReadsOutputAndStatus : Obligations.HostReadsOutputAndStatus := by
  refine ⟨decimalChars_eq_toDigits, fun s => ?_⟩
  cases hs : s.status <;> simp [State.exitStatus, State.hostFault, State.hostFinal, hs, eq_comm]

end Sys2Proof.Machine
end
